-- ==== Sys2Proof/Word.lean ====
section
/-! DEFINITION. The word types of the machine (spec/00_scope.md R10, spec/20_memory.md R50). -/

namespace Sys2Proof

/-- A byte is 8 bits (20_memory R50). -/
abbrev Byte := BitVec 8

/-- A 16-bit word: the source of the `r/m16` form (40_crc32 R126). -/
abbrev Word16 := BitVec 16

/-- A double word: "a 32-bit quantity" (00_scope R15). -/
abbrev DWord := BitVec 32

/-- A quad word: a 64-bit register or address (10_state R20). -/
abbrev QWord := BitVec 64

/-- A general register's number, 0 to 15 (10_state R21). -/
abbrev RegNum := Fin 16

end Sys2Proof
end

