-- ==== Sys2Proof/Machine/Crc.lean ====
section
/-! DEFINITION. The arithmetic of `CRC32` (spec/40_crc32.md R120 to R123), the forms the spec derives from it (R140,
R144), and the intrinsics (spec/30_encoding.md R108). -/

namespace Sys2Proof.Machine

/-- `reflect_N(v)`: bit `i` of the result is bit `N-1-i` of `v` (40_crc32 R120). -/
def reflect {n : Nat} (v : BitVec n) : BitVec n := v.reverse

/-- The loop of `mod2` (40_crc32 R121), at most `fuel` times round. -/
def mod2Loop : Nat → Nat → Nat → Nat
  | 0, a, _        => a
  | fuel + 1, a, p =>
    if a ≠ 0 ∧ p.log2 ≤ a.log2 then mod2Loop fuel (a ^^^ (p <<< (a.log2 - p.log2))) p else a

/-- `mod2(a, p)`: remainder of the polynomial division modulus 2, bit `i` the coefficient of `x^i` (40_crc32 R121).
Each round lowers the degree, so the degree of `a` plus one bounds the rounds. -/
def mod2 (a p : Nat) : Nat := mod2Loop (a.log2 + 1) a p

/-- Carry-less multiplication: the product of two polynomials over GF(2) (40_crc32 R121, "`a = q * p xor r`"). -/
def clmul (q p : Nat) : Nat :=
  (List.range (q.log2 + 1)).foldl (fun acc i => if q.testBit i then acc ^^^ (p <<< i) else acc) 0

/-- `POLY = 11EDC6F41H` (00_scope R2, 40_crc32 R122). -/
def poly : Nat := 0x11EDC6F41

/-- `crc32c_step(N, crc, data)`, with the temporaries of the source's pseudocode (40_crc32 R123). -/
def crc32cStep (n : Nat) (crc : DWord) (data : BitVec n) : DWord :=
  let temp1 : BitVec n := reflect data
  let temp2 : DWord := reflect crc
  let temp3 : BitVec (n + 32) := temp1.setWidth (n + 32) <<< 32
  let temp4 : BitVec (n + 32) := temp2.setWidth (n + 32) <<< n
  let temp5 : BitVec (n + 32) := temp3 ^^^ temp4
  let temp6 : DWord := BitVec.ofNat 32 (mod2 temp5.toNat poly)
  reflect temp6

/-! ### The bit-serial form and the table form -/

/-- `82F63B78H = reflect_32(1EDC6F41H)` (40_crc32 R140). -/
def reflectedPoly : DWord := 0x82F63B78

/-- One round of the bit-serial form: shift right, and subtract the polynomial if `f` is 1 (40_crc32 R140). -/
def bitRound (c : DWord) (dataBit : Bool) : DWord :=
  if c.getLsbD 0 ^^ dataBit then (c >>> 1) ^^^ reflectedPoly else c >>> 1

/-- The bit-serial form: the rounds for data bits `0` to `n - 1`, least significant first (40_crc32 R140). -/
def bitSerial {n : Nat} (crc : DWord) (data : BitVec n) : DWord :=
  (List.range n).foldl (fun c i => bitRound c (data.getLsbD i)) crc

/-- `T[k] = crc32c_step(8, 0, k)` (40_crc32 R144). -/
def crcTable (k : Byte) : DWord := crc32cStep 8 0 k

/-- The running CRC over a stream of bytes, one byte step each, the first byte first (40_crc32 R141, 95 2.7). -/
def crcBytes (crc : DWord) (bytes : List Byte) : DWord := bytes.foldl (fun c b => crc32cStep 8 c b) crc

/-! ### The intrinsics -/

/-- `_mm_crc32_u8` (30_encoding R108): forms R98 and R99. -/
def mmCrc32U8 (crc : DWord) (data : Byte) : DWord := crc32cStep 8 crc data

/-- `_mm_crc32_u16` (30_encoding R108): form R100. -/
def mmCrc32U16 (crc : DWord) (data : Word16) : DWord := crc32cStep 16 crc data

/-- `_mm_crc32_u32` (30_encoding R108): form R101. -/
def mmCrc32U32 (crc : DWord) (data : DWord) : DWord := crc32cStep 32 crc data

/-- `_mm_crc32_u64` (30_encoding R108): form R103. Only bits 31:0 of `crc` are used, and bits 63:32 of the result are
0. -/
def mmCrc32U64 (crc data : QWord) : QWord := (crc32cStep 64 (crc.setWidth 32) data).setWidth 64

end Sys2Proof.Machine
end

