-- ==== Sys2Proof/Config.lean ====
section
/-! DEFINITION. What an implementation fixes (spec/00_scope.md R7, R9) and the model's free values. -/

namespace Sys2Proof

/-- The five operating modes (00_scope R7). -/
inductive Mode where
  | real        -- Real-Address Mode
  | prot        -- Protected Mode
  | v8086       -- Virtual 8086 Mode
  | compat      -- Compatibility Mode
  | long64      -- 64-Bit Mode
deriving DecidableEq, Repr

/-- The two values a default size of a code segment can have outside `Long64` (00_scope R9). -/
inductive DefaultSize where
  | bits16
  | bits32
deriving DecidableEq, Repr

/-- What the decoder needs to know of the machine: the mode and the two default sizes of the code segment
(00_scope R9). In the modes where the spec fixes a default, the field is not read. -/
structure Ctx where
  mode               : Mode
  defaultOperandSize : DefaultSize
  defaultAddressSize : DefaultSize
deriving DecidableEq, Repr

/-- The decoding context of the reset state: real-address mode, 16-bit defaults (00_scope R9).
PRESUMED (the x86 family's, log entry 8); unsafe. -/
def Config.resetCtx : Ctx :=
  { mode := .real, defaultOperandSize := .bits16, defaultAddressSize := .bits16 }

/-- `VA_BITS`, the width of a canonical linear address: 48, the spec's own choice (00_scope R9, 20_memory R62, D7).
Log entry 21. -/
def Config.vaBits : Nat := 48

/-- `MAX_INSN_LEN`, the longest instruction in bytes (00_scope R9, 30_encoding R97). -/
def Config.maxInsnLen : Nat := 15

/-- FREE VALUE: bits 63:32 of a register written outside `Long64`, "unspecified (any value) after the write"
(10_state R24(b), 93 B13). Applied to the counter `State.free`. Log entry 6; safe. -/
opaque Config.freeUpper : Nat → DWord

/-- FREE VALUE: `FaultChoice`, which of several applicable exceptions is reported (60_exceptions R168(b), 93 B6).
Applied to the counter `State.free`. Log entry 5; safe. -/
opaque Config.faultChoice : Nat → Nat

/-- FREE VALUE: the pc after an instruction whose end, `pc + len`, is the top of the pc width and one more than the pc
register can hold. 10_state R27 lets it complete and says nothing of wrap-around. Applied to the counter `State.free`.
DESIGN CHOICE (log entry 29); safe. -/
opaque Config.freePc : Nat → QWord

end Sys2Proof
end

