-- ==== Sys2Proof/Syntax.lean ====
section
/-! DEFINITION. The instruction as syntax: the parts of a `CRC32` encoding (spec/30_encoding.md R81) and the six
instructions of spec/opcode_table.json (R98 to R103). Every part an admitted encoding can hold is kept, so that
decoding loses nothing; what the parts mean (registers, addresses, sizes) is said in Machine/. -/

namespace Sys2Proof

/-- The six segment registers (10_state R31). -/
inductive SegReg where
  | cs
  | ss
  | ds
  | es
  | fs
  | gs
deriving DecidableEq, Repr

/-- A legacy prefix that an admitted encoding may carry (30_encoding R82). `F3` is no part of any. -/
inductive LegacyPrefix where
  | repne                -- F2, the mandatory prefix
  | lock                 -- F0
  | opSize               -- 66, operand-size override
  | addrSize             -- 67, address-size override
  | seg (s : SegReg)     -- 2E 36 3E 26 64 65, segment override
deriving DecidableEq, Repr

/-- The bits R, X, B of a REX prefix (30_encoding R84). -/
structure RexBits where
  r : Bool
  x : Bool
  b : Bool
deriving DecidableEq, Repr

/-- A REX prefix: bit W and the bits R, X, B (30_encoding R84). -/
structure Rex where
  w    : Bool
  bits : RexBits
deriving DecidableEq, Repr

/-- The displacement after a 16-bit addressing form, by ModRM.mod = 00, 01, 10 (30_encoding R92). -/
inductive Disp16 where
  | absent
  | disp8  (v : Byte)
  | disp16 (v : Word16)
deriving DecidableEq, Repr

/-- The displacement after a 32- or 64-bit addressing form, by ModRM.mod = 00, 01, 10 (30_encoding R93, R94). -/
inductive Disp32 where
  | absent
  | disp8  (v : Byte)
  | disp32 (v : DWord)
deriving DecidableEq, Repr

/-- Operand 2, the fields ModRM.mod and ModRM.r/m with the SIB and displacement bytes they call for
(30_encoding R87, R92 to R94). The three-bit numbers are the fields as encoded; REX.X and REX.B extend them. -/
inductive Rm where
  /-- `mod = 11B`: a register (R87, R89). -/
  | reg (rm : BitVec 3)
  /-- 16-bit addressing, `mod = 00`, `r/m = 110`: a displacement alone (R92). -/
  | abs16 (disp : Word16)
  /-- 16-bit addressing, every other row of R92's table. -/
  | ind16 (rm : BitVec 3) (disp : Disp16)
  /-- `mod = 00`, `r/m = 101`: a disp32 alone; in `Long64` relative to the next instruction (R93, R94). -/
  | disp32 (disp : DWord)
  /-- A base register with no SIB byte (R93, R94). -/
  | base (rm : BitVec 3) (disp : Disp32)
  /-- A SIB byte that names a base register (R93, R94). -/
  | sib (scale : BitVec 2) (index : BitVec 3) (base : BitVec 3) (disp : Disp32)
  /-- A SIB byte with `base = 101` under `mod = 00`: no base, a disp32 follows (R93, R94). -/
  | sibNoBase (scale : BitVec 2) (index : BitVec 3) (disp : DWord)
deriving DecidableEq, Repr

/-- The six instructions, one constructor per row of spec/opcode_table.json. `pfx` is the legacy prefixes in the
order they stand, `reg` the field ModRM.reg. REX.W is part of the constructor. -/
inductive Instr where
  /-- Row 1, `F2 0F 38 F0 /r`, `CRC32 r32, r/m8` (30_encoding R98, 40_crc32 R124). -/
  | crc32R32Rm8 (pfx : List LegacyPrefix) (reg : BitVec 3) (rm : Rm)
  /-- Row 2, `F2 REX 0F 38 F0 /r`, `CRC32 r32, r/m8*` (30_encoding R99, 40_crc32 R125). -/
  | crc32R32Rm8Rex (pfx : List LegacyPrefix) (rex : RexBits) (reg : BitVec 3) (rm : Rm)
  /-- Row 3, `F2 0F 38 F1 /r` with `osz = 16`, `CRC32 r32, r/m16` (30_encoding R100, R104, 40_crc32 R126). -/
  | crc32R32Rm16 (pfx : List LegacyPrefix) (rex : Option RexBits) (reg : BitVec 3) (rm : Rm)
  /-- Row 4, `F2 0F 38 F1 /r` with `osz = 32`, `CRC32 r32, r/m32` (30_encoding R101, R104, 40_crc32 R127). -/
  | crc32R32Rm32 (pfx : List LegacyPrefix) (rex : Option RexBits) (reg : BitVec 3) (rm : Rm)
  /-- Row 5, `F2 REX.W 0F 38 F0 /r`, `CRC32 r64, r/m8` (30_encoding R102, 40_crc32 R128). -/
  | crc32R64Rm8 (pfx : List LegacyPrefix) (rex : RexBits) (reg : BitVec 3) (rm : Rm)
  /-- Row 6, `F2 REX.W 0F 38 F1 /r`, `CRC32 r64, r/m64` (30_encoding R103, 40_crc32 R129). -/
  | crc32R64Rm64 (pfx : List LegacyPrefix) (rex : RexBits) (reg : BitVec 3) (rm : Rm)
deriving DecidableEq, Repr

/-- The source's instruction template of a row, destination first (30_encoding R107; 95_test_vectors 1.1). -/
def Instr.template : Instr → String
  | .crc32R32Rm8 ..    => "CRC32 r32, r/m8"
  | .crc32R32Rm8Rex .. => "CRC32 r32, r/m8*"
  | .crc32R32Rm16 ..   => "CRC32 r32, r/m16"
  | .crc32R32Rm32 ..   => "CRC32 r32, r/m32"
  | .crc32R64Rm8 ..    => "CRC32 r64, r/m8"
  | .crc32R64Rm64 ..   => "CRC32 r64, r/m64"

/-- Why the decoder gives a byte string no meaning (30_encoding R80, R106): every one is a refusal, safe. -/
inductive DecodeError where
  /-- The bytes end before the encoding does. -/
  | truncated
  /-- No `F2` prefix: another instruction (R106(c)). -/
  | noMandatoryPrefix
  /-- `F3` is present (R83, R106(b)). -/
  | repPrefix
  /-- One of `F2`, `66`, `67`, `F0` stands more than once (R83, R106(b)). -/
  | repeatedPrefix
  /-- More than one segment-override prefix (R83, R106(b)). -/
  | twoSegmentOverrides
  /-- In `Long64`, a REX byte that does not stand immediately before `0F` (R84). -/
  | rexNotBeforeOpcode
  /-- Outside `Long64`, a byte `40H` to `4FH`: no prefix there (R84, R106(a)). -/
  | rexOutsideLong64
  /-- The next bytes are not `0F 38 F0` or `0F 38 F1` (R85, R106(d), (e)). -/
  | notCrc32Opcode
deriving DecidableEq, Repr

end Sys2Proof
end

