-- ==== Sys2Proof/Machine/Fields.lean ====
section
/-! DEFINITION. What the parts of an encoding say before any state is read: the parts of each of the six forms,
the size attributes (spec/30_encoding.md R86, R91), the prefix discipline (R83) and the length (R97). -/

namespace Sys2Proof

/-- The operand-size attribute (30_encoding R86). -/
inductive OpSize where
  | s16
  | s32
  | s64
deriving DecidableEq, Repr

/-- The address-size attribute (30_encoding R91). -/
inductive AddrSize where
  | a16
  | a32
  | a64
deriving DecidableEq, Repr

/-- `DefaultOperandSize`: fixed 16 in `Real` and `V8086`, fixed 32 in `Long64` (00_scope R9). -/
def Ctx.operandDefault (c : Ctx) : DefaultSize :=
  match c.mode with
  | .real | .v8086         => .bits16
  | .long64                => .bits32
  | .prot | .compat   => c.defaultOperandSize

/-- `DefaultAddressSize` outside `Long64`: fixed 16 in `Real` and `V8086` (00_scope R9). -/
def Ctx.addressDefault (c : Ctx) : DefaultSize :=
  match c.mode with
  | .real | .v8086                  => .bits16
  | .prot | .compat | .long64  => c.defaultAddressSize

/-- `osz` (30_encoding R86). -/
def osz (c : Ctx) (has66 rexW : Bool) : OpSize :=
  if c.mode = .long64 then
    if rexW then .s64 else if has66 then .s16 else .s32
  else
    match c.operandDefault with
    | .bits32 => if has66 then .s16 else .s32
    | .bits16 => if has66 then .s32 else .s16

/-- `asz` (30_encoding R91). -/
def asz (c : Ctx) (has67 : Bool) : AddrSize :=
  if c.mode = .long64 then
    if has67 then .a32 else .a64
  else
    match c.addressDefault with
    | .bits32 => if has67 then .a16 else .a32
    | .bits16 => if has67 then .a32 else .a16

/-- The width of the pc in bits: 64 in `Long64`, 16 where the default operand size is 16, else 32 (10_state R27, D16). -/
def Ctx.pcWidth (c : Ctx) : Nat :=
  if c.mode = .long64 then 64
  else
    match c.operandDefault with
    | .bits16 => 16
    | .bits32 => 32

/-- The width of the pc register in bits: 64 in `Long64`, 32 otherwise (10_state R20). -/
def Ctx.pcRegWidth (c : Ctx) : Nat := if c.mode = .long64 then 64 else 32

/-- Is this prefix a segment override? -/
def LegacyPrefix.isSeg : LegacyPrefix → Bool
  | .seg _ => true
  | _      => false

/-- The segment-override prefix, if one is present (30_encoding R82). -/
def segOverride : List LegacyPrefix → Option SegReg
  | []           => none
  | .seg s :: _  => some s
  | _ :: ps      => segOverride ps

/-- The prefix discipline of 30_encoding R83: what is wrong with a list of legacy prefixes, if anything. -/
def prefixProblem (ps : List LegacyPrefix) : Option DecodeError :=
  if ps.count .repne = 0 then some .noMandatoryPrefix
  else if 1 < ps.count .repne || 1 < ps.count .lock || 1 < ps.count .opSize || 1 < ps.count .addrSize then
    some .repeatedPrefix
  else if 1 < ps.countP LegacyPrefix.isSeg then some .twoSegmentOverrides
  else none

/-- The legacy prefixes of an instruction, in the order they stand (30_encoding R81). -/
def Instr.prefixes : Instr → List LegacyPrefix
  | .crc32R32Rm8 p _ _ | .crc32R32Rm8Rex p _ _ _ | .crc32R32Rm16 p _ _ _ | .crc32R32Rm32 p _ _ _
  | .crc32R64Rm8 p _ _ _ | .crc32R64Rm64 p _ _ _ => p

/-- The REX prefix of an instruction, if it has one (30_encoding R104). -/
def Instr.rex : Instr → Option Rex
  | .crc32R32Rm8 _ _ _      => none
  | .crc32R32Rm8Rex _ x _ _ => some ⟨false, x⟩
  | .crc32R32Rm16 _ x _ _   => x.map (Rex.mk false)
  | .crc32R32Rm32 _ x _ _   => x.map (Rex.mk false)
  | .crc32R64Rm8 _ x _ _    => some ⟨true, x⟩
  | .crc32R64Rm64 _ x _ _   => some ⟨true, x⟩

/-- Bit 0 of the third opcode byte: is the source of the operand size (30_encoding R85)? -/
def Instr.wide : Instr → Bool
  | .crc32R32Rm8 .. | .crc32R32Rm8Rex .. | .crc32R64Rm8 .. => false
  | .crc32R32Rm16 .. | .crc32R32Rm32 .. | .crc32R64Rm64 .. => true

/-- The field ModRM.reg (30_encoding R87). -/
def Instr.reg : Instr → BitVec 3
  | .crc32R32Rm8 _ r _ | .crc32R32Rm8Rex _ _ r _ | .crc32R32Rm16 _ _ r _ | .crc32R32Rm32 _ _ r _
  | .crc32R64Rm8 _ _ r _ | .crc32R64Rm64 _ _ r _ => r

/-- Operand 2 (30_encoding R87). -/
def Instr.rm : Instr → Rm
  | .crc32R32Rm8 _ _ m | .crc32R32Rm8Rex _ _ _ m | .crc32R32Rm16 _ _ _ m | .crc32R32Rm32 _ _ _ m
  | .crc32R64Rm8 _ _ _ m | .crc32R64Rm64 _ _ _ m => m

/-- Does the encoding carry a `LOCK` prefix (30_encoding R105)? -/
def Instr.hasLock (i : Instr) : Bool := i.prefixes.contains .lock

/-- Does the encoding carry the operand-size override `66` (30_encoding R82)? -/
def Instr.has66 (i : Instr) : Bool := i.prefixes.contains .opSize

/-- Does the encoding carry the address-size override `67` (30_encoding R82)? -/
def Instr.has67 (i : Instr) : Bool := i.prefixes.contains .addrSize

/-- REX.W; it counts as 0 without a REX prefix (30_encoding R109). -/
def Instr.rexW (i : Instr) : Bool := i.rex.any Rex.w

/-- The bits R, X, B; they are 0 without a REX prefix (30_encoding R93). -/
def Instr.rexBits (i : Instr) : RexBits :=
  match i.rex with
  | some x => x.bits
  | none   => ⟨false, false, false⟩

/-- The bytes of a displacement (30_encoding R92). -/
def Disp16.size : Disp16 → Nat
  | .absent   => 0
  | .disp8 _  => 1
  | .disp16 _ => 2

/-- The bytes of a displacement (30_encoding R93). -/
def Disp32.size : Disp32 → Nat
  | .absent   => 0
  | .disp8 _  => 1
  | .disp32 _ => 4

/-- The bytes of SIB and displacement after ModRM (30_encoding R97). -/
def Rm.extraSize : Rm → Nat
  | .reg _           => 0
  | .abs16 _         => 2
  | .ind16 _ d       => d.size
  | .disp32 _        => 4
  | .base _ d        => d.size
  | .sib _ _ _ d     => 1 + d.size
  | .sibNoBase _ _ _ => 1 + 4

/-- `len`, the number of bytes of the encoding including all prefixes (30_encoding R97). -/
def Instr.length (i : Instr) : Nat :=
  i.prefixes.length + (if i.rex.isSome then 1 else 0) + 3 + 1 + i.rm.extraSize

end Sys2Proof
end

