-- ==== Sys2Proof/Machine/State.lean ====
section
/-! DEFINITION. The machine's state (spec/10_state.md R20), the parameters of the step it carries
(spec/00_scope.md R9), how a step can stop (spec/60_exceptions.md R160, spec/30_encoding.md R106), and the state after
reset. All plain data. -/

namespace Sys2Proof.Machine

/-! ### State -/

/-- A general register as its two double words: bits 63:32 and bits 31:0 (10_state R22). Outside `Long64` only `lo` of
registers 0 to 7 is architectural (10_state R20, R24(b)). -/
structure Gpr where
  hi : DWord
  lo : DWord
deriving DecidableEq, Repr

/-- Memory, from physical addresses to bytes (10_state R20, 20_memory R50): the bytes that differ from what an unlisted
address reads as, addresses strictly rising. -/
abbrev Memory := List Host.Cell

/-- A range of addresses or offsets, both ends included. -/
structure Range where
  first : Nat
  last  : Nat
deriving DecidableEq, Repr

/-- Operands that a stricter `SegCheck` fails: those at offsets `first` to `last`, of one size in bytes or of any
(`none`). Log entry 4. -/
structure Bar where
  first : Nat
  last  : Nat
  bytes : Option Nat
deriving DecidableEq, Repr

/-- What the model takes of a segment (10_state R31, 00_scope R9). `base` is `SegBase`; `inside` is `InSegment`, the
offsets inside the segment, read in `Protected` and `Compat` (20_memory R58); `barred` is what a stricter `SegCheck`
fails for a cause the page does not list, in any mode (20_memory R58, D7). It bars data operands only, so a segment can be
fetched from and not read. Log entries 3 and 4. -/
structure Segment where
  base   : QWord
  inside : List Range
  barred : List Bar
deriving DecidableEq, Repr

/-- What `Translate` answers for a range of linear addresses (20_memory R64): physical addresses that count on from
`phys`, or `#PF(code)`. -/
inductive PageResult where
  | mapped (phys : Nat)
  | faults (code : Nat)
deriving DecidableEq, Repr

/-- One range of linear addresses, `first` to `last`, at one privilege level or at every one (`none`). -/
structure PageEntry where
  first  : Nat
  last   : Nat
  cpl    : Option (Fin 4)
  result : PageResult
deriving DecidableEq, Repr

/-- `Translate` as a table (20_memory R64, 00_scope R9): the identity when paging is off; else the first entry that
covers the address, and `#PF(miss)` where none does. Log entry 2. -/
inductive Paging where
  | off
  | table (entries : List PageEntry) (miss : Nat)
deriving DecidableEq, Repr

/-- The parameters of the step (00_scope R9; log entry 1): no step changes them. `sse42` is `SSE4_2`, `alignCheck` is
`AlignCheckEnabled`; `sideEffects` are the physical addresses whose reads have side effects, which the launch memory
refuses (20_memory R67, D19; log entry 15). -/
structure Env where
  ctx         : Ctx
  sse42       : Bool
  cpl         : Fin 4
  alignCheck  : Bool
  cs          : Segment
  ss          : Segment
  ds          : Segment
  es          : Segment
  fs          : Segment
  gs          : Segment
  paging      : Paging
  sideEffects : List Range
deriving DecidableEq, Repr

/-- The state (10_state R20): registers, pc, flags, memory; the parameters; and the model's own counter `free`, that
the free values of Config are applied to (log entries 5, 6 and 29). -/
structure State where
  regs  : Vector Gpr 16
  pc    : QWord
  flags : DWord
  mem   : Memory
  env   : Env
  free  : Nat
deriving DecidableEq, Repr

/-! ### How a step stops -/

/-- The exceptions `CRC32` can raise (60_exceptions R160). A raised exception ends the run with this outcome and the
state as before the instruction (R169, R170): safe, since the chip would enter a handler (D12; log entry 16). -/
inductive Fault where
  /-- `#UD`: raised by any form when `SSE4_2 = 0` or a `LOCK` prefix is present (R161). Safe. -/
  | ud
  /-- `#SS(0)`: raised by a form with a memory source addressed through SS that fails its check (R162 to R166). Safe. -/
  | ss0
  /-- `#GP(0)`: raised by a form with a memory source addressed through another segment that fails its check
  (R162 to R166). Safe. -/
  | gp0
  /-- `#PF(fault-code)`: raised by a form with a memory source whose translation fails (20_memory R64). Safe. -/
  | pf (code : Nat)
  /-- `#AC(0)`: raised by a form with a 2-, 4- or 8-byte memory source (20_memory R56). Safe. -/
  | ac0
deriving DecidableEq, Repr

/-- Why a step has no meaning. Every one is safe: nothing is claimed of what the chip does. -/
inductive Refusal where
  /-- Raised by an arm of `exec` that has no meaning yet. Safe. -/
  | notModelled (mnemonic : String)
  /-- Raised by `step`: the bytes at the pc are no admitted encoding (30_encoding R106). Safe. -/
  | notCrc32 (e : DecodeError)
  /-- Raised by `exec` on an instruction that is no admitted encoding in the state's mode (30_encoding R106(a), (b));
  `step` never hands it one. Safe. Log entry 22. -/
  | notEncodable
  /-- Raised by `step`: a byte of the instruction cannot be fetched, which is outside the model (10_state R26, D9).
  Safe. Log entry 12. -/
  | notFetchable
  /-- Raised by `exec`, at the advance, on an instruction that raises nothing and whose end exceeds the top of the pc
  width: "the step is *refused*" (10_state R27, D16, 93 B14). Safe. Log entry 13. -/
  | pastTop
  /-- Raised by `step` and `exec`: the read has side effects, which the launch memory refuses (20_memory R67, D19).
  Safe. Log entry 15. -/
  | sideEffectRead
deriving DecidableEq, Repr

/-! ### Reset -/

/-- A segment at reset: the given base, offsets 0 to 0FFFFH. PRESUMED (log entry 8); unsafe. -/
def Segment.reset (base : QWord) : Segment :=
  { base := base, inside := [{ first := 0, last := 0xFFFF }], barred := [] }

/-- The parameters at reset. The spec states none (10_state R36): PRESUMED, the x86 family's, in log entry 8;
`sse42`, `barred` and `sideEffects` DESIGN CHOICE, in log entry 9; unsafe. -/
def Env.reset : Env :=
  { ctx         := Config.resetCtx
    sse42       := true
    cpl         := 0
    alignCheck  := false
    cs          := Segment.reset 0xFFFF0000
    ss          := Segment.reset 0
    ds          := Segment.reset 0
    es          := Segment.reset 0
    fs          := Segment.reset 0
    gs          := Segment.reset 0
    paging      := .off
    sideEffects := [] }

/-- The machine right after reset. The spec states no reset value (10_state R36, 70_reset R200): the x86 family's,
PRESUMED in log entry 8, and DESIGN CHOICE in log entry 9 where the family fixes none; unsafe. -/
def State.reset : State :=
  { regs  := Vector.replicate 16 { hi := 0, lo := 0 }
    pc    := 0xFFF0
    flags := 2
    mem   := []
    env   := Env.reset
    free  := 0 }

end Sys2Proof.Machine
end

