-- ==== Sys2Proof/Machine/Ops.lean ====
section
/-! DEFINITION. The named operations over registers, memory and the parameters, raising an exception, and advancing
the pc (spec/00_scope.md R14, spec/10_state.md R21 to R27, spec/20_memory.md R50 to R64, spec/60_exceptions.md R160). -/

namespace Sys2Proof.Machine

/-! ### Registers -/

/-- Read of a whole register as its two double words (00_scope R14). -/
def State.gpr (s : State) (i : RegNum) : Gpr := s.regs[i]

/-- Write of a whole register (00_scope R14). -/
def State.setGpr (s : State) (i : RegNum) (g : Gpr) : State := { s with regs := s.regs.set i g }

/-- `r64(i)` (10_state R22). -/
def State.r64 (s : State) (i : RegNum) : QWord := (s.gpr i).hi ++ (s.gpr i).lo

/-- `r32(i)` (10_state R22). -/
def State.r32 (s : State) (i : RegNum) : DWord := (s.gpr i).lo

/-- `r16(i)` (10_state R22). -/
def State.r16 (s : State) (i : RegNum) : Word16 := (s.gpr i).lo.extractLsb' 0 16

/-- `r8lo(i)`, bits 7:0 (10_state R22). -/
def State.r8lo (s : State) (i : RegNum) : Byte := (s.gpr i).lo.extractLsb' 0 8

/-- `r8hi(i)`, bits 15:8, defined for registers 0 to 3: AH, CH, DH, BH (10_state R22). -/
def State.r8hi (s : State) (i : Fin 4) : Byte := (s.gpr (i.castLE (by decide))).lo.extractLsb' 8 8

/-- Write of an `r64` destination: the result below, 00000000H above (10_state R23). -/
def State.writeR64 (s : State) (d : RegNum) (v : DWord) : State := s.setGpr d { hi := 0, lo := v }

/-- Write of an `r32` destination (10_state R24): in `Long64` bits 63:32 become 0; elsewhere they are left unspecified,
a free value. -/
def State.writeR32 (s : State) (d : RegNum) (v : DWord) : State :=
  if s.env.ctx.mode = .long64 then s.setGpr d { hi := 0, lo := v }
  else { s.setGpr d { hi := Config.freeUpper s.free, lo := v } with free := s.free + 1 }

/-- A register number from a REX bit and a three-bit field: `hi ++ lo` (30_encoding R88, R89). -/
def regNum (hi : Bool) (lo : BitVec 3) : RegNum := (BitVec.ofBool hi ++ lo : BitVec 4).toFin

/-! ### Memory -/

/-- What an address that memory does not list reads as. DESIGN CHOICE (log entry 10); unsafe. -/
def unlistedByte : Byte := 0

/-- The byte at a physical address (10_state R20, 20_memory R50). -/
def readByte : Memory → Nat → Byte
  | [], _          => unlistedByte
  | (k, v) :: m, a => if a = k then v else readByte m a

/-- The memory with one byte changed. No rule of the spec writes memory (20_memory R66); a launch state is built with
it. -/
def writeByte : Memory → Nat → Byte → Memory
  | [], a, b          => if b = unlistedByte then [] else [(a, b)]
  | (k, v) :: m, a, b =>
    if a < k then if b = unlistedByte then (k, v) :: m else (a, b) :: (k, v) :: m
    else if a = k then if b = unlistedByte then m else (a, b) :: m
    else (k, v) :: writeByte m a b

/-- Are the addresses of the list above `low`, strictly rising, with no byte that need not be listed? -/
def Memory.wfFrom : Nat → Memory → Bool
  | _, []            => true
  | low, (k, v) :: m => low ≤ k && v ≠ unlistedByte && Memory.wfFrom (k + 1) m

/-- The canonical form of memory: addresses strictly rising, no entry equal to what an unlisted address reads as. -/
def Memory.wf (m : Memory) : Bool := Memory.wfFrom 0 m

/-- The value of a list of bytes, the first the least significant (20_memory R51, R52). -/
def leValue : List Byte → Nat
  | []      => 0
  | b :: bs => b.toNat + 256 * leValue bs

/-! ### The parameters -/

/-- Does the range hold the address? -/
def Range.has (r : Range) (a : Nat) : Bool := r.first ≤ a && a ≤ r.last

/-- Does some range of the list hold the address? -/
def inRanges (rs : List Range) (a : Nat) : Bool := rs.any fun r => r.has a

/-- Does the bar hold for an operand of `n` bytes at offset `ea`? -/
def Bar.holds (b : Bar) (ea n : Nat) : Bool := b.first ≤ ea && ea ≤ b.last && (b.bytes = none || b.bytes = some n)

/-- Does a stricter `SegCheck` fail an operand of `n` bytes at offset `ea` (20_memory R58, D7)? Log entry 4. -/
def Segment.bars (g : Segment) (ea n : Nat) : Bool := g.barred.any fun b => b.holds ea n

/-- The segment a segment register names (10_state R31). -/
def Env.segment (e : Env) : SegReg → Segment
  | .cs => e.cs
  | .ss => e.ss
  | .ds => e.ds
  | .es => e.es
  | .fs => e.fs
  | .gs => e.gs

/-- The current privilege level: `V8086` implies 3 (92 D2). -/
def Env.level (e : Env) : Fin 4 := if e.ctx.mode = .v8086 then 3 else e.cpl

/-- `LinearAddress(Mode, seg, ea)` (20_memory R63). -/
def Env.linear (e : Env) (seg : SegReg) (ea : QWord) : QWord :=
  if e.ctx.mode = .long64 then
    (if seg = .fs ∨ seg = .gs then (e.segment seg).base else 0) + ea
  else
    ((e.segment seg).base.setWidth 32 + ea.setWidth 32).setWidth 64

/-- The linear address `k` bytes above `la`: modulo 2^64 in `Long64`, modulo 2^32 elsewhere, as 20_memory R63 takes
sums. DEDUCED (log entry 14); unsafe. -/
def Env.linearAfter (e : Env) (la : QWord) (k : Nat) : QWord :=
  if e.ctx.mode = .long64 then la + BitVec.ofNat 64 k
  else (la.setWidth 32 + BitVec.ofNat 32 k).setWidth 64

/-- `Canonical(a)`: bits 63 down to `VA_BITS - 1` are all equal (20_memory R62). -/
def canonical (a : Nat) : Bool :=
  a / 2 ^ (Config.vaBits - 1) = 0 || a / 2 ^ (Config.vaBits - 1) = 2 ^ (65 - Config.vaBits) - 1

/-- Does the entry cover this linear address at this privilege level? -/
def PageEntry.covers (p : PageEntry) (cpl : Fin 4) (la : Nat) : Bool :=
  p.first ≤ la && la ≤ p.last && (p.cpl = none || p.cpl = some cpl)

/-- `Translate` for one byte (20_memory R64): its physical address, or the code of a page fault. The identity when
paging is off, and in `Real`, which has no `#PF`. -/
def Env.translate (e : Env) (la : QWord) : Except Nat Nat :=
  if e.ctx.mode = .real then .ok la.toNat
  else
    match e.paging with
    | .off            => .ok la.toNat
    | .table ps miss  =>
      match ps.find? fun p => p.covers e.level la.toNat with
      | none   => .error miss
      | some p =>
        match p.result with
        | .mapped phys => .ok (phys + (la.toNat - p.first))
        | .faults code => .error code

/-! ### Exceptions -/

/-- How an operation ends without a value: in a fault or in a refusal. -/
inductive Stop where
  | fault (f : Fault)
  | refused (r : Refusal)
deriving DecidableEq, Repr

/-- The outcome of a step that stops. -/
def Stop.outcome : Stop → Host.Outcome State Fault Refusal
  | .fault f   => .fault f
  | .refused r => .refused r

/-- `raise #XX(code)`, the one way an instruction raises an exception (00_scope R14, 60_exceptions R169, R170): the run
ends with the outcome `Fault(#XX, code)`, and no register, flag, memory byte or pc has been changed. -/
def raise (f : Fault) : Host.Outcome State Fault Refusal := Stop.outcome (.fault f)

/-- The exception's error code (60_exceptions R160): none for `#UD`, the fault-code for `#PF`, else 0. -/
def faultErrorCode : Fault → Option Nat
  | .ud      => none
  | .ss0     => some 0
  | .gp0     => some 0
  | .pf code => some code
  | .ac0     => some 0

/-- The exception's vector number (60_exceptions R160, from general knowledge). -/
def faultVector : Fault → Nat
  | .ud    => 6
  | .ss0   => 12
  | .gp0   => 13
  | .pf _  => 14
  | .ac0   => 17

/-! ### The pc -/

/-- Does `pc + len` exceed the top of the pc width (10_state R27, D16)? An instruction that ends at the top does not
exceed it. Log entry 13. -/
def State.passesTop (s : State) (len : Nat) : Bool := 2 ^ s.env.ctx.pcWidth < s.pc.toNat + len

/-- The address of the next instruction, `pc + len` (10_state R26, R27). -/
def State.nextPc (s : State) (len : Nat) : QWord := s.pc + BitVec.ofNat 64 len

/-- A free value of the width of the pc register. Log entry 29. -/
def State.freePc (s : State) : QWord := BitVec.ofNat 64 ((Config.freePc s.free).toNat % 2 ^ s.env.ctx.pcRegWidth)

/-- `pc <- pc + len` (10_state R27). Where the pc register cannot hold the sum, which is then 2^32 or 2^64 itself, the new
pc is a free value, and the counter passes it. -/
def State.advance (s : State) (len : Nat) : State :=
  if s.pc.toNat + len < 2 ^ s.env.ctx.pcRegWidth then { s with pc := s.nextPc len }
  else { s with pc := s.freePc, free := s.free + 1 }

end Sys2Proof.Machine
end

