-- ==== Sys2Proof/Machine/Flags.lean ====
section
/-! DEFINITION. The flags: `CRC32` computes none (spec/10_state.md R28, spec/40_crc32.md R131), and the one flag-like
input is the condition of the alignment check (spec/10_state.md R29, spec/20_memory.md R56). -/

namespace Sys2Proof.Machine

/-- The status flags after a `CRC32`: "Flags Affected: None" (10_state R28, 40_crc32 R131). -/
def crc32Flags (flags : DWord) : DWord := flags

/-- Is alignment checked here: enabled, and at privilege level 3 in `Protected`, `Compat` and `Long64`, always in
`V8086`, never in `Real` (20_memory R56)? -/
def Env.checksAlignment (e : Env) : Bool :=
  e.alignCheck &&
    match e.ctx.mode with
    | .prot | .compat | .long64 => e.cpl = 3
    | .v8086                    => true
    | .real                     => false

end Sys2Proof.Machine
end

