-- ==== Sys2Proof/Machine/Operands.lean ====
section
/-! DEFINITION. The operands of `CRC32`: register numbers and register sources (spec/30_encoding.md R88 to R90),
effective addresses and segments (R92 to R96), and the checked read of a memory source (spec/20_memory.md R54 to R64). -/

namespace Sys2Proof.Machine

/-- The width of a source operand (30_encoding R104). -/
inductive SrcSize where
  | b8
  | b16
  | b32
  | b64
deriving DecidableEq, Repr

/-- The source width in bits, `N` of 40_crc32 R123. -/
abbrev SrcSize.bits : SrcSize → Nat
  | .b8  => 8
  | .b16 => 16
  | .b32 => 32
  | .b64 => 64

/-- The source width in bytes, `n` of 20_memory R54. -/
def SrcSize.bytes : SrcSize → Nat
  | .b8  => 1
  | .b16 => 2
  | .b32 => 4
  | .b64 => 8

/-! ### Registers -/

/-- The destination register `d = REX.R ++ ModRM.reg` (30_encoding R88). -/
def destReg (i : Instr) : RegNum := regNum i.rexBits.r i.reg

/-- An `r/m8` register source (30_encoding R89, R90): without a REX prefix codes 4 to 7 are AH, CH, DH, BH; with one
they are the low bytes of registers 4 to 7. -/
def byteSource (rex : Option Rex) (code : BitVec 3) (s : State) : Byte :=
  match rex with
  | none   => if code.toNat < 4 then s.r8lo (regNum false code) else s.r8hi (Fin.ofNat 4 (code.toNat - 4))
  | some x => s.r8lo (regNum x.bits.b code)

/-- A register source, `mod = 11B` (30_encoding R89). -/
def regSource (sz : SrcSize) (i : Instr) (code : BitVec 3) (s : State) : BitVec sz.bits :=
  match sz with
  | .b8  => byteSource i.rex code s
  | .b16 => s.r16 (regNum i.rexBits.b code)
  | .b32 => s.r32 (regNum i.rexBits.b code)
  | .b64 => s.r64 (regNum i.rexBits.b code)

/-! ### Effective address and segment -/

/-- A 16-bit displacement's value: none is 0, disp8 is sign-extended (30_encoding R92, R95). -/
def disp16Value : Disp16 → Word16
  | .absent   => 0
  | .disp8 v  => v.signExtend 16
  | .disp16 v => v

/-- A displacement's value at the address width: none is 0, disp8 and disp32 are sign-extended (30_encoding R93 to
R95; a disp32 at width 32 is itself). -/
def disp32Value (w : Nat) : Disp32 → BitVec w
  | .absent   => 0
  | .disp8 v  => v.signExtend w
  | .disp32 v => v.signExtend w

/-- Base plus index of a row of the 16-bit table: BX, BP, SI, DI are `r16` of 3, 5, 6, 7 (30_encoding R92). -/
def base16 (rm : BitVec 3) (s : State) : Word16 :=
  match rm.toNat with
  | 0 => s.r16 3 + s.r16 6
  | 1 => s.r16 3 + s.r16 7
  | 2 => s.r16 5 + s.r16 6
  | 3 => s.r16 5 + s.r16 7
  | 4 => s.r16 6
  | 5 => s.r16 7
  | 6 => s.r16 5
  | _ => s.r16 3

/-- The scaled index of a SIB byte, registers read through `reg`: register 4 means no index (30_encoding R93). -/
def scaledIndex {w : Nat} (reg : RegNum → BitVec w) (i : RegNum) (scale : BitVec 2) : BitVec w :=
  if i = 4 then 0 else reg i <<< scale.toNat

/-- The effective address of a 32- or 64-bit form at address width `w`; `reg` reads a register at that width, `r32` or
`r64` (30_encoding R93, R94). `nextPc` is the address of the next instruction. The 16-bit forms and a register have none
here. -/
def wideAddress {w : Nat} (reg : RegNum → BitVec w) (x : RexBits) (m : Mode) (nextPc : QWord) : Rm → BitVec w
  | .reg _ | .abs16 _ | .ind16 _ _ => 0
  | .disp32 d         => if m = .long64 then (nextPc + d.signExtend 64).setWidth w else d.signExtend w
  | .base rm d        => reg (regNum x.b rm) + disp32Value w d
  | .sib sc i b d     => reg (regNum x.b b) + scaledIndex reg (regNum x.x i) sc + disp32Value w d
  | .sibNoBase sc i d => scaledIndex reg (regNum x.x i) sc + d.signExtend w

/-- The effective address of a memory source, zero-extended: truncated to the address size (30_encoding R92 to R94). -/
def effectiveAddress (i : Instr) (s : State) : QWord :=
  match i.rm with
  | .reg _      => 0
  | .abs16 d    => d.setWidth 64
  | .ind16 rm d => (base16 rm s + disp16Value d).setWidth 64
  | _           =>
    match asz s.env.ctx i.has67 with
    | .a64 => wideAddress s.r64 i.rexBits s.env.ctx.mode (s.nextPc i.length) i.rm
    | _    => (wideAddress s.r32 i.rexBits s.env.ctx.mode (s.nextPc i.length) i.rm).setWidth 64

/-- The default segment of a memory source: SS for the BP rows of the 16-bit table and for base register 4 or 5, else DS
(30_encoding R92 to R94). -/
def defaultSegment (x : RexBits) : Rm → SegReg
  | .ind16 rm _   => if rm = 2 ∨ rm = 3 ∨ rm = 6 then .ss else .ds
  | .base rm _    => if regNum x.b rm = 4 ∨ regNum x.b rm = 5 then .ss else .ds
  | .sib _ _ b _  => if regNum x.b b = 4 ∨ regNum x.b b = 5 then .ss else .ds
  | _             => .ds

/-- The segment of a memory source (30_encoding R96): an override replaces the default, but in `Long64` only FS and GS
do. -/
def operandSegment (i : Instr) (m : Mode) : SegReg :=
  match segOverride i.prefixes with
  | none   => defaultSegment i.rexBits i.rm
  | some o => if m = .long64 ∧ o ≠ .fs ∧ o ≠ .gs then defaultSegment i.rexBits i.rm else o

/-! ### The checked read -/

/-- The exception of a failed segment or canonical check: the segment selects it (20_memory R58, R59, R62, D20). -/
def segmentFault (seg : SegReg) : Fault := if seg = .ss then .ss0 else .gp0

/-- The `n` offsets of an operand, computed without wrap-around (20_memory R58, R59). -/
def offsets (ea : QWord) (n : Nat) : List Nat := (List.range n).map fun k => ea.toNat + k

/-- `InSegment(seg, offset)` (20_memory R58). An offset that 32 bits do not hold is outside. Log entry 3. -/
def inSegment (g : Segment) (off : Nat) : Bool := off < 2 ^ 32 && inRanges g.inside off

/-- Step 1 of 20_memory R57, `SegCheck`: does some byte of the operand fail it (R58 to R62)? -/
def failsSegCheck (e : Env) (seg : SegReg) (ea : QWord) (n : Nat) : Bool :=
  (match e.ctx.mode with
    | .prot | .compat => (offsets ea n).any fun off => !inSegment (e.segment seg) off
    | .real | .v8086  => (offsets ea n).any fun off => 0xFFFF < off
    | .long64         => false)
  || (e.segment seg).bars ea.toNat n

/-- Step 3 of 20_memory R57: in `Long64`, is some byte address not canonical (R62)? One past 2^64 counts as such. -/
def failsCanonical (e : Env) (la : QWord) (n : Nat) : Bool :=
  e.ctx.mode = .long64 && (offsets la n).any fun a => !(a < 2 ^ 64 && canonical a)

/-- Step 4 of 20_memory R57, `AlignFault` (R56): unaligned when either address is no multiple of the operand's size. -/
def failsAlignment (e : Env) (ea la : QWord) (n : Nat) : Bool :=
  e.checksAlignment && 1 < n && (la.toNat % n ≠ 0 || ea.toNat % n ≠ 0)

/-- Step 5 of 20_memory R57: what `Translate` answers for each byte (R52, R64). -/
def translations (e : Env) (la : QWord) (n : Nat) : List (Except Nat Nat) :=
  (List.range n).map fun k => e.translate (e.linearAfter la k)

/-- The codes of the page faults among the translations (20_memory R64). -/
def pageFaultCodes (ts : List (Except Nat Nat)) : List Nat :=
  ts.filterMap fun t => match t with
    | .error code => some code
    | .ok _       => none

/-- The physical addresses among the translations (20_memory R52). -/
def physicalAddrs (ts : List (Except Nat Nat)) : List Nat :=
  ts.filterMap fun t => match t with
    | .error _ => none
    | .ok pa   => some pa

/-- Every exception that applies to a memory source of `n` bytes, in the order of the steps of 20_memory R57, each named
once (60_exceptions R162 to R166, R168). -/
def operandFaults (e : Env) (seg : SegReg) (ea : QWord) (n : Nat) : List Fault :=
  let la := e.linear seg ea
  ((if failsSegCheck e seg ea n || failsCanonical e la n then [segmentFault seg] else [])
    ++ (if failsAlignment e ea la n then [Fault.ac0] else [])
    ++ (pageFaultCodes (translations e la n)).map Fault.pf).dedup

/-- `FaultChoice` (60_exceptions R168(b)): any one of the applicable exceptions; which, where there are several, is a
free value. Log entry 5. -/
def chooseFault (free : Nat) : List Fault → Option Fault
  | []          => none
  | [f]         => some f
  | f :: g :: t => (f :: g :: t)[Config.faultChoice free % (t.length + 2)]?

/-- `ReadOperand(seg, ea, n)` (20_memory R57) of a source of size `sz`. A read with side effects is refused (R67). -/
def readOperand (sz : SrcSize) (seg : SegReg) (ea : QWord) (s : State) : Except Stop (BitVec sz.bits) :=
  match chooseFault s.free (operandFaults s.env seg ea sz.bytes) with
  | some f => .error (.fault f)
  | none   =>
    let pas := physicalAddrs (translations s.env (s.env.linear seg ea) sz.bytes)
    if pas.any fun a => inRanges s.env.sideEffects a then .error (.refused .sideEffectRead)
    else .ok (BitVec.ofNat sz.bits (leValue (pas.map (readByte s.mem))))

/-- The source operand: a register, or the checked read of memory (40_crc32 R130). -/
def readSource (sz : SrcSize) (i : Instr) (s : State) : Except Stop (BitVec sz.bits) :=
  match i.rm with
  | .reg code => .ok (regSource sz i code s)
  | _         => readOperand sz (operandSegment i s.env.ctx.mode) (effectiveAddress i s) s

end Sys2Proof.Machine
end

