-- ==== Sys2Proof/WellFormed.lean ====
section
/-! DEFINITION. Which instructions are admitted encodings in a decoding context (spec/30_encoding.md R83, R84, R92 to
R94, R104, R106). -/

namespace Sys2Proof

/-- Does operand 2 have the shape its address size calls for, and is no row of the addressing tables named that the
table gives to another form (30_encoding R92, R93)? -/
def Rm.wellFormed (a : AddrSize) : Rm → Bool
  | .reg _           => true
  | .abs16 _         => a = .a16
  | .ind16 rm d      => a = .a16 && !(rm = 6 && d = .absent)
  | .disp32 _        => a ≠ .a16
  | .base rm d       => a ≠ .a16 && rm ≠ 4 && !(rm = 5 && d = .absent)
  | .sib _ _ b d     => a ≠ .a16 && !(b = 5 && d = .absent)
  | .sibNoBase _ _ _ => a ≠ .a16

/-- The condition a row of the opcode table sets beside its bytes (30_encoding R98 to R104): REX prefixes exist only in
`Long64`, and rows 3 and 4 are told apart by the operand-size attribute. -/
def Instr.rowHolds (c : Ctx) (i : Instr) : Bool :=
  match i with
  | .crc32R32Rm8 ..         => true
  | .crc32R32Rm8Rex ..      => c.mode = .long64
  | .crc32R32Rm16 _ x _ _   => (x = none || c.mode = .long64) && osz c i.has66 false = .s16
  | .crc32R32Rm32 _ x _ _   => (x = none || c.mode = .long64) && osz c i.has66 false = .s32
  | .crc32R64Rm8 ..         => c.mode = .long64
  | .crc32R64Rm64 ..        => c.mode = .long64

/-- An instruction is well formed in a context when its prefixes keep the discipline of 30_encoding R83, its row's
condition holds, and operand 2 has the shape of the address size. -/
def Instr.wellFormed (c : Ctx) (i : Instr) : Bool :=
  (prefixProblem i.prefixes).isNone && i.rowHolds c && i.rm.wellFormed (asz c i.has67)

end Sys2Proof
end

