-- ==== Sys2Proof/Machine/Crc32.lean ====
section
/-! DEFINITION. The meaning of each of the six `CRC32` instructions (spec/40_crc32.md R124 to R129), on the one execution
template (R130). -/

namespace Sys2Proof.Machine

/-- The width of a destination register, `DW` of 40_crc32 R130. -/
inductive DestSize where
  | r32
  | r64
deriving DecidableEq, Repr

/-- The column "source bits `N`" of the form table (30_encoding R104). -/
def srcSizeOf : Instr → SrcSize
  | .crc32R32Rm8 ..    => .b8
  | .crc32R32Rm8Rex .. => .b8
  | .crc32R32Rm16 ..   => .b16
  | .crc32R32Rm32 ..   => .b32
  | .crc32R64Rm8 ..    => .b8
  | .crc32R64Rm64 ..   => .b64

/-- The column "destination" of the form table (30_encoding R104). -/
def destSizeOf : Instr → DestSize
  | .crc32R32Rm8 ..    => .r32
  | .crc32R32Rm8Rex .. => .r32
  | .crc32R32Rm16 ..   => .r32
  | .crc32R32Rm32 ..   => .r32
  | .crc32R64Rm8 ..    => .r64
  | .crc32R64Rm64 ..   => .r64

/-- Write of the destination register (10_state R23, R24). -/
def writeDest (dw : DestSize) (d : RegNum) (v : DWord) (s : State) : State :=
  match dw with
  | .r32 => s.writeR32 d v
  | .r64 => s.writeR64 d v

/-- The state a `CRC32` that completes leaves (40_crc32 R130): the destination written, the flags as "Flags Affected:
None" has them, and the pc past the instruction. -/
def afterCrc32 (sz : SrcSize) (dw : DestSize) (i : Instr) (data : BitVec sz.bits) (s : State) : State :=
  let d := destReg i
  let written := writeDest dw d (crc32cStep sz.bits (s.r32 d) data) s
  { written with flags := crc32Flags s.flags }.advance i.length

/-- `ExecCRC32` (40_crc32 R130, 00_scope R17). An instruction that is no encoding in the state's mode has no meaning
(30_encoding R106); `#UD` comes first, then the source is read, which may raise; then the destination is written and the
pc advanced, and at the advance an instruction that exceeds the top of the pc width is refused (10_state R27, 93 B14). -/
def execCrc32 (sz : SrcSize) (dw : DestSize) (i : Instr) (s : State) : Host.Outcome State Fault Refusal :=
  if !i.wellFormed s.env.ctx then .refused .notEncodable
  else if i.hasLock || !s.env.sse42 then raise .ud
  else
    match readSource sz i s with
    | .error stop => stop.outcome
    | .ok data    => if s.passesTop i.length then .refused .pastTop else .next (afterCrc32 sz dw i data s)

/-- `CRC32 r32, r/m8`, `F2 0F 38 F0 /r` (40_crc32 R124). -/
def execCrc32R32Rm8 (pfx : List LegacyPrefix) (reg : BitVec 3) (rm : Rm) (s : State) :
    Host.Outcome State Fault Refusal :=
  execCrc32 .b8 .r32 (.crc32R32Rm8 pfx reg rm) s

/-- `CRC32 r32, r/m8`, `F2 REX 0F 38 F0 /r` (40_crc32 R125). -/
def execCrc32R32Rm8Rex (pfx : List LegacyPrefix) (rex : RexBits) (reg : BitVec 3) (rm : Rm) (s : State) :
    Host.Outcome State Fault Refusal :=
  execCrc32 .b8 .r32 (.crc32R32Rm8Rex pfx rex reg rm) s

/-- `CRC32 r32, r/m16`, `F2 0F 38 F1 /r` with operand size 16 (40_crc32 R126). -/
def execCrc32R32Rm16 (pfx : List LegacyPrefix) (rex : Option RexBits) (reg : BitVec 3) (rm : Rm) (s : State) :
    Host.Outcome State Fault Refusal :=
  execCrc32 .b16 .r32 (.crc32R32Rm16 pfx rex reg rm) s

/-- `CRC32 r32, r/m32`, `F2 0F 38 F1 /r` with operand size 32 (40_crc32 R127). -/
def execCrc32R32Rm32 (pfx : List LegacyPrefix) (rex : Option RexBits) (reg : BitVec 3) (rm : Rm) (s : State) :
    Host.Outcome State Fault Refusal :=
  execCrc32 .b32 .r32 (.crc32R32Rm32 pfx rex reg rm) s

/-- `CRC32 r64, r/m8`, `F2 REX.W 0F 38 F0 /r` (40_crc32 R128). -/
def execCrc32R64Rm8 (pfx : List LegacyPrefix) (rex : RexBits) (reg : BitVec 3) (rm : Rm) (s : State) :
    Host.Outcome State Fault Refusal :=
  execCrc32 .b8 .r64 (.crc32R64Rm8 pfx rex reg rm) s

/-- `CRC32 r64, r/m64`, `F2 REX.W 0F 38 F1 /r` (40_crc32 R129). -/
def execCrc32R64Rm64 (pfx : List LegacyPrefix) (rex : RexBits) (reg : BitVec 3) (rm : Rm) (s : State) :
    Host.Outcome State Fault Refusal :=
  execCrc32 .b64 .r64 (.crc32R64Rm64 pfx rex reg rm) s

end Sys2Proof.Machine
end

