-- ==== Sys2Proof/Machine/Dispatch.lean ====
section
/-! DEFINITION. One arm per instruction of spec/opcode_table.json. -/

namespace Sys2Proof.Machine

def exec (i : Instr) (s : State) : Host.Outcome State Fault Refusal :=
  match i with
  | .crc32R32Rm8 pfx reg rm => Sys2Proof.Machine.execCrc32R32Rm8 pfx reg rm s
  | .crc32R32Rm8Rex pfx rex reg rm => Sys2Proof.Machine.execCrc32R32Rm8Rex pfx rex reg rm s
  | .crc32R32Rm16 pfx rex reg rm => Sys2Proof.Machine.execCrc32R32Rm16 pfx rex reg rm s
  | .crc32R32Rm32 pfx rex reg rm => Sys2Proof.Machine.execCrc32R32Rm32 pfx rex reg rm s
  | .crc32R64Rm8 pfx rex reg rm => Sys2Proof.Machine.execCrc32R64Rm8 pfx rex reg rm s
  | .crc32R64Rm64 pfx rex reg rm => Sys2Proof.Machine.execCrc32R64Rm64 pfx rex reg rm s

end Sys2Proof.Machine
end

