-- ==== Sys2Proof/Decode.lean ====
section
/-! DEFINITION. The decoder (spec/30_encoding.md R80), total on any bytes, and after it the encoder (R81, R87, R95),
both from the encoding tables of the spec. -/

namespace Sys2Proof

/-! ### The decoder -/

/-- The legacy prefix a byte is, if an admitted encoding may carry it (30_encoding R82). -/
def prefixOfByte (b : Byte) : Option LegacyPrefix :=
  if b = 0xF2 then some .repne
  else if b = 0xF0 then some .lock
  else if b = 0x66 then some .opSize
  else if b = 0x67 then some .addrSize
  else if b = 0x2E then some (.seg .cs)
  else if b = 0x36 then some (.seg .ss)
  else if b = 0x3E then some (.seg .ds)
  else if b = 0x26 then some (.seg .es)
  else if b = 0x64 then some (.seg .fs)
  else if b = 0x65 then some (.seg .gs)
  else none

/-- Step 1 of 30_encoding R80: record legacy prefixes and advance. -/
def scanPrefixes : List Byte → List LegacyPrefix × List Byte
  | []      => ([], [])
  | b :: bs =>
    match prefixOfByte b with
    | some p => (p :: (scanPrefixes bs).1, (scanPrefixes bs).2)
    | none   => ([], b :: bs)

/-- Is the byte one of `40H` to `4FH` (30_encoding R84)? -/
def isRexByte (b : Byte) : Bool := b.extractLsb' 4 4 = 4

/-- The fields of a REX byte `0100WRXB` (30_encoding R84). -/
def rexOfByte (b : Byte) : Rex :=
  { w := b.getLsbD 3, bits := { r := b.getLsbD 2, x := b.getLsbD 1, b := b.getLsbD 0 } }

/-- Step 2 of 30_encoding R80: in `Long64`, record a REX byte and advance. -/
def scanRex (m : Mode) : List Byte → Option Rex × List Byte
  | []      => (none, [])
  | b :: bs => if m = .long64 ∧ isRexByte b then (some (rexOfByte b), bs) else (none, b :: bs)

/-- Why a byte that should be `0F` is none (30_encoding R83 to R85). -/
def notOpcode (rexSeen : Bool) (m : Mode) (b : Byte) : DecodeError :=
  if b = 0xF3 then .repPrefix
  else if rexSeen then .rexNotBeforeOpcode
  else if isRexByte b && m ≠ .long64 then .rexOutsideLong64
  else .notCrc32Opcode

/-- Step 3 of 30_encoding R80: the three opcode bytes; answers bit 0 of the third (R85). -/
def takeOpcode (rexSeen : Bool) (m : Mode) : List Byte → Except DecodeError (Bool × List Byte)
  | []      => .error .truncated
  | b :: bs =>
    if b ≠ 0x0F then .error (notOpcode rexSeen m b)
    else
      match bs with
      | []      => .error .truncated
      | c :: cs =>
        if c ≠ 0x38 then .error .notCrc32Opcode
        else
          match cs with
          | []      => .error .truncated
          | d :: ds =>
            if d = 0xF0 then .ok (false, ds)
            else if d = 0xF1 then .ok (true, ds)
            else .error .notCrc32Opcode

/-- A disp8 (30_encoding R95). -/
def take8 : List Byte → Option (Byte × List Byte)
  | b0 :: bs => some (b0, bs)
  | _        => none

/-- A disp16, little-endian: `b1 ++ b0` (30_encoding R95). -/
def take16 : List Byte → Option (Word16 × List Byte)
  | b0 :: b1 :: bs => some (b1 ++ b0, bs)
  | _              => none

/-- A disp32, little-endian: `b3 ++ b2 ++ b1 ++ b0` (30_encoding R95). -/
def take32 : List Byte → Option (DWord × List Byte)
  | b0 :: b1 :: b2 :: b3 :: bs => some (b3 ++ b2 ++ b1 ++ b0, bs)
  | _                          => none

/-- The displacement that `mod` = 00, 01, 10 calls for in 16-bit addressing (30_encoding R92). -/
def takeDisp16 (mod : BitVec 2) (bs : List Byte) : Option (Disp16 × List Byte) :=
  if mod = 0 then some (.absent, bs)
  else if mod = 1 then (take8 bs).map fun r => (.disp8 r.1, r.2)
  else (take16 bs).map fun r => (.disp16 r.1, r.2)

/-- The displacement that `mod` = 00, 01, 10 calls for in 32- and 64-bit addressing (30_encoding R93). -/
def takeDisp32 (mod : BitVec 2) (bs : List Byte) : Option (Disp32 × List Byte) :=
  if mod = 0 then some (.absent, bs)
  else if mod = 1 then (take8 bs).map fun r => (.disp8 r.1, r.2)
  else (take32 bs).map fun r => (.disp32 r.1, r.2)

/-- Operand 2 in 16-bit addressing, `mod != 11B` (30_encoding R92). -/
def takeRm16 (mod : BitVec 2) (rm : BitVec 3) (bs : List Byte) : Option (Rm × List Byte) :=
  if mod = 0 ∧ rm = 6 then (take16 bs).map fun r => (.abs16 r.1, r.2)
  else (takeDisp16 mod bs).map fun r => (.ind16 rm r.1, r.2)

/-- The SIB byte and what follows it, `mod != 11B` (30_encoding R93). -/
def takeSib (mod : BitVec 2) : List Byte → Option (Rm × List Byte)
  | []      => none
  | b :: bs =>
    if mod = 0 ∧ b.extractLsb' 0 3 = 5 then
      (take32 bs).map fun r => (.sibNoBase (b.extractLsb' 6 2) (b.extractLsb' 3 3) r.1, r.2)
    else
      (takeDisp32 mod bs).map fun r =>
        (.sib (b.extractLsb' 6 2) (b.extractLsb' 3 3) (b.extractLsb' 0 3) r.1, r.2)

/-- Operand 2 in 32- and 64-bit addressing, `mod != 11B` (30_encoding R93, R94). -/
def takeRm32 (mod : BitVec 2) (rm : BitVec 3) (bs : List Byte) : Option (Rm × List Byte) :=
  if rm = 4 then takeSib mod bs
  else if mod = 0 ∧ rm = 5 then (take32 bs).map fun r => (.disp32 r.1, r.2)
  else (takeDisp32 mod bs).map fun r => (.base rm r.1, r.2)

/-- Step 5 of 30_encoding R80: operand 2 from the fields `mod` and `r/m` and the bytes after ModRM. -/
def takeRm (a : AddrSize) (mod : BitVec 2) (rm : BitVec 3) (bs : List Byte) : Option (Rm × List Byte) :=
  if mod = 3 then some (.reg rm, bs)
  else
    match a with
    | .a16        => takeRm16 mod rm bs
    | .a32 | .a64 => takeRm32 mod rm bs

/-- Form selection, a total function of the decoded fields (30_encoding R104). -/
def selectForm (c : Ctx) (ps : List LegacyPrefix) (rex : Option Rex) (wide : Bool) (reg : BitVec 3) (rm : Rm) : Instr :=
  match wide, rex with
  | false, none            => .crc32R32Rm8 ps reg rm
  | false, some ⟨false, x⟩ => .crc32R32Rm8Rex ps x reg rm
  | false, some ⟨true, x⟩  => .crc32R64Rm8 ps x reg rm
  | true,  some ⟨true, x⟩  => .crc32R64Rm64 ps x reg rm
  | true,  rex             =>
    match osz c (ps.contains .opSize) false with
    | .s16 => .crc32R32Rm16 ps (rex.map Rex.bits) reg rm
    | _    => .crc32R32Rm32 ps (rex.map Rex.bits) reg rm

/-- 30_encoding R80: the instruction at the head of the bytes, with the bytes after it, or why there is none. -/
def decode (c : Ctx) (bytes : List Byte) : Except DecodeError (Instr × List Byte) :=
  let (ps, afterPrefixes) := scanPrefixes bytes
  let (rex, afterRex) := scanRex c.mode afterPrefixes
  match takeOpcode rex.isSome c.mode afterRex with
  | .error e => .error e
  | .ok (wide, afterOpcode) =>
    match afterOpcode with
    | []           => .error .truncated
    | modrm :: bs  =>
      match takeRm (asz c (ps.contains .addrSize)) (modrm.extractLsb' 6 2) (modrm.extractLsb' 0 3) bs with
      | none            => .error .truncated
      | some (rm, rest) =>
        match prefixProblem ps with
        | some e => .error e
        | none   => .ok (selectForm c ps rex wide (modrm.extractLsb' 3 3) rm, rest)

/-! ### The encoder -/

/-- The byte of a legacy prefix (30_encoding R82). -/
def LegacyPrefix.byte : LegacyPrefix → Byte
  | .repne    => 0xF2
  | .lock     => 0xF0
  | .opSize   => 0x66
  | .addrSize => 0x67
  | .seg .cs  => 0x2E
  | .seg .ss  => 0x36
  | .seg .ds  => 0x3E
  | .seg .es  => 0x26
  | .seg .fs  => 0x64
  | .seg .gs  => 0x65

/-- The byte `0100WRXB` (30_encoding R84). -/
def Rex.byte (x : Rex) : Byte :=
  4#4 ++ BitVec.ofBool x.w ++ BitVec.ofBool x.bits.r ++ BitVec.ofBool x.bits.x ++ BitVec.ofBool x.bits.b

/-- The bytes of a 16-bit displacement in ascending address order (30_encoding R95). -/
def bytes16 (v : Word16) : List Byte := [v.extractLsb' 0 8, v.extractLsb' 8 8]

/-- The bytes of a 32-bit displacement in ascending address order (30_encoding R95). -/
def bytes32 (v : DWord) : List Byte :=
  [v.extractLsb' 0 8, v.extractLsb' 8 8, v.extractLsb' 16 8, v.extractLsb' 24 8]

/-- The field `mod` a displacement stands under (30_encoding R92). -/
def Disp16.mod : Disp16 → BitVec 2
  | .absent   => 0
  | .disp8 _  => 1
  | .disp16 _ => 2

/-- The bytes of a displacement (30_encoding R92, R95). -/
def Disp16.bytes : Disp16 → List Byte
  | .absent   => []
  | .disp8 v  => [v]
  | .disp16 v => bytes16 v

/-- The field `mod` a displacement stands under (30_encoding R93). -/
def Disp32.mod : Disp32 → BitVec 2
  | .absent   => 0
  | .disp8 _  => 1
  | .disp32 _ => 2

/-- The bytes of a displacement (30_encoding R93, R95). -/
def Disp32.bytes : Disp32 → List Byte
  | .absent   => []
  | .disp8 v  => [v]
  | .disp32 v => bytes32 v

/-- The field ModRM.mod (30_encoding R87, R92, R93). -/
def Rm.mod : Rm → BitVec 2
  | .reg _           => 3
  | .abs16 _         => 0
  | .ind16 _ d       => d.mod
  | .disp32 _        => 0
  | .base _ d        => d.mod
  | .sib _ _ _ d     => d.mod
  | .sibNoBase _ _ _ => 0

/-- The field ModRM.r/m (30_encoding R87, R92, R93). -/
def Rm.code : Rm → BitVec 3
  | .reg rm          => rm
  | .abs16 _         => 6
  | .ind16 rm _      => rm
  | .disp32 _        => 5
  | .base rm _       => rm
  | .sib _ _ _ _     => 4
  | .sibNoBase _ _ _ => 4

/-- The bytes after ModRM: SIB, then displacement (30_encoding R81). -/
def Rm.extra : Rm → List Byte
  | .reg _           => []
  | .abs16 v         => bytes16 v
  | .ind16 _ d       => d.bytes
  | .disp32 v        => bytes32 v
  | .base _ d        => d.bytes
  | .sib s i b d     => (s ++ i ++ b : BitVec 8) :: d.bytes
  | .sibNoBase s i v => (s ++ i ++ (5 : BitVec 3) : BitVec 8) :: bytes32 v

/-- The REX byte, if the instruction has one (30_encoding R81). -/
def Instr.rexBytes (i : Instr) : List Byte :=
  match i.rex with
  | some x => [x.byte]
  | none   => []

/-- The bytes of an instruction in ascending address order (30_encoding R81). -/
def encode (i : Instr) : List Byte :=
  i.prefixes.map LegacyPrefix.byte ++ i.rexBytes
    ++ [0x0F, 0x38, if i.wide then 0xF1 else 0xF0]
    ++ (i.rm.mod ++ i.reg ++ i.rm.code : BitVec 8) :: i.rm.extra

/-! ### The opcode table's words -/

/-- The bytes of the instruction whose table word is `w`. 30_encoding R109: the table numbers the three opcode bytes
alone, the first of them most significant, and gives every row the mandatory prefix `F2` beside them; ModRM and every
later byte count on from bit 24. Bits from `nbits` up are 0. `Config.maxInsnLen` bytes in all. Log entry 20. -/
def tableBytes (nbits w : Nat) : List Byte :=
  let v := w % 2 ^ nbits
  [0xF2, BitVec.ofNat 8 (v >>> 16), BitVec.ofNat 8 (v >>> 8), BitVec.ofNat 8 v]
    ++ (List.range (Config.maxInsnLen - 4)).map fun k => BitVec.ofNat 8 (v >>> (8 * (k + 3)))

/-- The instruction the decoder reads from the table word `w`, in the reset state's context (log entry 20). -/
def decodeTableWord (nbits w : Nat) : Option Instr :=
  match decode Config.resetCtx (tableBytes nbits w) with
  | .ok (i, _) => some i
  | .error _   => none

end Sys2Proof
end

