-- ==== Sys2Proof/Machine/Fetch.lean ====
section
/-! DEFINITION. Fetching the instruction at the pc (spec/10_state.md R26, spec/00_scope.md R17), and placing bytes where
the fetch reads them. -/

namespace Sys2Proof.Machine

/-- Is the offset inside CS, or in `Long64` canonical, so that the fetch reaches it (10_state R26, D9)? `barred` bars data
operands and does not count here. Log entry 12. -/
def Env.insideCode (e : Env) (off : Nat) : Bool :=
  match e.ctx.mode with
  | .prot | .compat => inSegment e.cs off
  | .real | .v8086  => off ≤ 0xFFFF
  | .long64         => off < 2 ^ 64 && canonical off

/-- The physical address of byte `k` of the instruction at the pc: the linear address of `CS : pc + k`, after `Translate`
(10_state R26). A byte that would fault, outside CS, not canonical or unmapped, is outside the model (D9, log entry
12). -/
def fetchAddr (s : State) (k : Nat) : Except Refusal Nat :=
  if !s.env.insideCode (s.pc.toNat + k) then .error .notFetchable
  else
    match s.env.translate (s.env.linear .cs (s.nextPc k)) with
    | .error _ => .error .notFetchable
    | .ok pa   => if inRanges s.env.sideEffects pa then .error .sideEffectRead else .ok pa

/-- The bytes from byte `k` of the instruction on, at most `fuel` of them and up to the first that cannot be fetched,
with why it cannot. -/
def fetchFrom (s : State) : Nat → Nat → List Byte × Option Refusal
  | _, 0        => ([], none)
  | k, fuel + 1 =>
    match fetchAddr s k with
    | .error r => ([], some r)
    | .ok pa   => (readByte s.mem pa :: (fetchFrom s (k + 1) fuel).1, (fetchFrom s (k + 1) fuel).2)

/-- Fetch and decode at the pc (00_scope R17, 30_encoding R80): at most `MAX_INSN_LEN` bytes. Bytes beyond the
instruction need not be fetchable. -/
def fetchInstr (s : State) : Except Refusal Instr :=
  let window := fetchFrom s 0 Config.maxInsnLen
  match decode s.env.ctx window.1 with
  | .ok (i, _)          => .ok i
  | .error .truncated   => .error (window.2.getD (.notCrc32 .truncated))
  | .error e            => .error (.notCrc32 e)

/-- The memory with bytes placed where the fetch reads byte `k` of the instruction on. A byte that cannot be fetched is
not placed. -/
def placeFrom (s : State) : Nat → List Byte → Memory → Memory
  | _, [], m      => m
  | k, b :: bs, m =>
    match fetchAddr s k with
    | .error _ => placeFrom s (k + 1) bs m
    | .ok pa   => placeFrom s (k + 1) bs (writeByte m pa b)

/-- The state with bytes placed at the pc, nothing else changed: the launch memory of 20_memory R68, R71. -/
def State.withCode (s : State) (bytes : List Byte) : State := { s with mem := placeFrom s 0 bytes s.mem }

end Sys2Proof.Machine
end

