-- ==== Sys2Proof/Machine/Step.lean ====
section
/-! DEFINITION. One step of the machine (spec/00_scope.md R17). -/

namespace Sys2Proof.Machine

/-- One step executes one instruction (00_scope R17): fetch and decode at the pc, then the instruction's meaning, which
advances the pc itself (40_crc32 R130). -/
def step (s : State) : Host.Outcome State Fault Refusal :=
  match fetchInstr s with
  | .error r => .refused r
  | .ok i    => exec i s

/-- The state with the instruction of a table word placed at the pc (log entry 20). -/
def State.withFetchWord (s : State) (nbits w : Nat) : State := s.withCode (tableBytes nbits w)

end Sys2Proof.Machine
end

