-- ==== Sys2Proof/Safety.lean ====
section
/-! DEFINITION. What counts as a safe run, in the terms claims use: which exceptions apply to a memory source
(spec/60_exceptions.md R162 to R166), when a source can be read and an instruction completes (spec/20_memory.md R57,
spec/70_reset_and_hazards.md R201), what a completed `CRC32` leaves (spec/40_crc32.md R130), and how a run ends (R204).
These are written from the rules, apart from the functions of Machine/ that compute the same. -/

namespace Sys2Proof.Safety

open Sys2Proof.Machine

/-- Does a `SegCheck` stricter than the page's list fail a memory source of `n` bytes at offset `ea` (20_memory R58, the
model's form of it in log entry 4)? -/
def Barred (g : Segment) (ea n : Nat) : Prop :=
  ∃ b ∈ g.barred, b.first ≤ ea ∧ ea ≤ b.last ∧ (b.bytes = none ∨ b.bytes = some n)

/-- Does a memory source of `n` bytes at offset `ea` fail its segment or canonical check (20_memory R58 to R62)? -/
def SegmentBad (e : Env) (seg : SegReg) (ea : QWord) (n : Nat) : Prop :=
  (match e.ctx.mode with
    | .prot | .compat => ∃ k, k < n ∧ inSegment (e.segment seg) (ea.toNat + k) = false
    | .real | .v8086  => 0xFFFF < ea.toNat + n - 1
    | .long64         => ∃ k, k < n ∧
        (2 ^ 64 ≤ (e.linear seg ea).toNat + k ∨ canonical ((e.linear seg ea).toNat + k) = false))
  ∨ Barred (e.segment seg) ea.toNat n

/-- Is a memory source of `n` bytes unaligned where alignment is checked (20_memory R56)? -/
def Unaligned (e : Env) (seg : SegReg) (ea : QWord) (n : Nat) : Prop :=
  e.alignCheck = true ∧ 1 < n
  ∧ (((e.ctx.mode = .prot ∨ e.ctx.mode = .compat ∨ e.ctx.mode = .long64) ∧ e.cpl = 3) ∨ e.ctx.mode = .v8086)
  ∧ ((e.linear seg ea).toNat % n ≠ 0 ∨ ea.toNat % n ≠ 0)

/-- Does the exception apply to a memory source of `n` bytes at `seg:ea`? The lists of 60_exceptions R162 to R166, with
the segment telling `#SS(0)` from `#GP(0)` (R168(c)). The model's own: a barred operand counts as outside its segment in
every mode (log entry 4), and a byte past linear address FFFFFFFFH outside `Long64` is translated at the address modulo
2^32 (log entry 14). -/
def Applies (e : Env) (seg : SegReg) (ea : QWord) (n : Nat) : Fault → Prop
  | .ud      => False
  | .gp0     => seg ≠ .ss ∧ SegmentBad e seg ea n
  | .ss0     => seg = .ss ∧ SegmentBad e seg ea n
  | .ac0     => Unaligned e seg ea n
  | .pf code => ∃ k, k < n ∧ e.translate (e.linearAfter (e.linear seg ea) k) = .error code

/-- A memory source of `n` bytes can be read (20_memory R57): no exception applies, its bytes stand at the physical
addresses `pas`, in order, and none of those has side effects. Past linear address FFFFFFFFH outside `Long64` the
addresses wrap modulo 2^32, the model's reading (log entry 14). -/
def ReadableAt (e : Env) (seg : SegReg) (ea : QWord) (n : Nat) (pas : List Nat) : Prop :=
  ¬ SegmentBad e seg ea n ∧ ¬ Unaligned e seg ea n
  ∧ pas.length = n
  ∧ (∀ k pa, pas[k]? = some pa → e.translate (e.linearAfter (e.linear seg ea) k) = .ok pa)
  ∧ ∀ pa ∈ pas, inRanges e.sideEffects pa = false

/-- The operand-size attribute in bits, by mode, default, `66` and REX.W: the cases of 30_encoding R86. -/
def operandBits (m : Mode) (dflt : DefaultSize) (has66 rexW : Bool) : Nat :=
  match m, dflt with
  | .long64, _                            => if rexW then 64 else if has66 then 16 else 32
  | .real, _ | .v8086, _                  => if has66 then 32 else 16
  | .prot, .bits16 | .compat, .bits16     => if has66 then 32 else 16
  | .prot, .bits32 | .compat, .bits32     => if has66 then 16 else 32

/-- The address-size attribute in bits, by mode, default and `67`: the cases of 30_encoding R91. -/
def addressBits (m : Mode) (dflt : DefaultSize) (has67 : Bool) : Nat :=
  match m, dflt with
  | .long64, _                            => if has67 then 32 else 64
  | .real, _ | .v8086, _                  => if has67 then 32 else 16
  | .prot, .bits16 | .compat, .bits16     => if has67 then 32 else 16
  | .prot, .bits32 | .compat, .bits32     => if has67 then 16 else 32

/-- Is operand 2 a row of the 16-bit addressing table (30_encoding R92)? -/
def IsAddress16 : Rm → Prop
  | .abs16 _ | .ind16 _ _ => True
  | _                     => False

/-- Is operand 2 a register (30_encoding R87)? -/
def IsRegister : Rm → Prop
  | .reg _ => True
  | _      => False

/-- The conditions under which a `CRC32` does more than raise `#UD` (70_reset R201 item 1): it is an encoding in this mode,
the feature is present and no `LOCK` prefix is used. -/
def Enabled (i : Instr) (s : State) : Prop :=
  i.wellFormed s.env.ctx = true ∧ s.env.sse42 = true ∧ LegacyPrefix.lock ∉ i.prefixes

/-- The conditions under which a `CRC32` with a readable source completes: it is enabled, and `pc + len` does not exceed
the top of the pc width (10_state R27). -/
def Executable (i : Instr) (s : State) : Prop :=
  Enabled i s ∧ s.pc.toNat + i.length ≤ 2 ^ s.env.ctx.pcWidth

/-- The number of the register that a REX bit and a three-bit field name (30_encoding R88, R89): the bit counts 8. -/
def numberOf (rexBit : Bool) (field : BitVec 3) : RegNum := Fin.ofNat 16 (8 * rexBit.toNat + field.toNat)

/-- The bit R of a REX prefix that may be absent (30_encoding R88). -/
def bitR (x : Option RexBits) : Bool := x.any RexBits.r

/-- The bit B of a REX prefix that may be absent (30_encoding R89). -/
def bitB (x : Option RexBits) : Bool := x.any RexBits.b

/-- The instruction completes and leaves `result` in register `d` (40_crc32 R130): the destination holds it (10_state R23,
R24), the pc is past the instruction (R27) wherever the pc register can hold that (R20), and every other register, the flags (R28), every byte of memory (20_memory
R66) and the parameters are as before. -/
def CompletesWith (i : Instr) (s : State) (d : RegNum) (result : DWord) : Prop :=
  ∃ t, exec i s = .next t
    ∧ t.r32 d = result
    ∧ (s.env.ctx.mode = .long64 → t.r64 d = result.setWidth 64)
    ∧ (∀ r, r ≠ d → t.gpr r = s.gpr r)
    ∧ (s.pc.toNat + i.length < 2 ^ s.env.ctx.pcRegWidth → t.pc.toNat = s.pc.toNat + i.length)
    ∧ t.flags = s.flags
    ∧ (∀ a, readByte t.mem a = readByte s.mem a)
    ∧ t.env = s.env

/-- The outcome with its next state, if it has one, changed by `g`. -/
def mapNext (g : State → State) : Host.Outcome State Fault Refusal → Host.Outcome State Fault Refusal
  | .next t    => .next (g t)
  | .fault f   => .fault f
  | .refused r => .refused r

/-- The state in another operating mode. -/
def inMode (m : Mode) (s : State) : State := { s with env := { s.env with ctx := { s.env.ctx with mode := m } } }

/-- The state at another privilege level. -/
def atLevel (c : Fin 4) (s : State) : State := { s with env := { s.env with cpl := c } }

/-- The state with other flags. -/
def withFlags (f : DWord) (s : State) : State := { s with flags := f }

/-- The state with other bits 63:32 in every register. -/
def withUppers (u : Vector DWord 16) (s : State) : State :=
  { s with regs := Vector.ofFn fun r => { hi := u[r], lo := s.r32 r } }

/-- The instruction with other legacy prefixes. -/
def withPrefixes (ps : List LegacyPrefix) : Instr → Instr
  | .crc32R32Rm8 _ r m      => .crc32R32Rm8 ps r m
  | .crc32R32Rm8Rex _ x r m => .crc32R32Rm8Rex ps x r m
  | .crc32R32Rm16 _ x r m   => .crc32R32Rm16 ps x r m
  | .crc32R32Rm32 _ x r m   => .crc32R32Rm32 ps x r m
  | .crc32R64Rm8 _ x r m    => .crc32R64Rm8 ps x r m
  | .crc32R64Rm64 _ x r m   => .crc32R64Rm64 ps x r m

/-- Two states are the same but for bits 63:32 of the registers. -/
def SameButUppers (s t : State) : Prop :=
  (∀ r, t.r32 r = s.r32 r) ∧ t.pc = s.pc ∧ t.flags = s.flags ∧ t.mem = s.mem ∧ t.env = s.env ∧ t.free = s.free

/-- Two outcomes are the same but for bits 63:32 of the registers of a next state. -/
def OutcomesSameButUppers : Host.Outcome State Fault Refusal → Host.Outcome State Fault Refusal → Prop
  | .next s, .next t       => SameButUppers s t
  | .fault f, .fault g     => f = g
  | .refused q, .refused r => q = r
  | _, _                   => False

/-- The machine's invariant: memory in its canonical form, the pc a value of its register (10_state R20) that does not
exceed the top of the pc width (R27). -/
def Inv (s : State) : Prop :=
  s.mem.wf = true ∧ s.pc.toNat < 2 ^ s.env.ctx.pcRegWidth ∧ s.pc.toNat ≤ 2 ^ s.env.ctx.pcWidth

/-- The bytes of the instruction stand where the fetch reads them (10_state R26). -/
def CodeAtPc (s : State) (bytes : List Byte) : Prop :=
  ∀ k b, bytes[k]? = some b → ∃ pa, fetchAddr s k = .ok pa ∧ readByte s.mem pa = b

/-- No run from this state ends in an exception (60_exceptions R169). -/
def NeverFaults (s : State) : Prop := ∀ k f, Sys2Proof.core.run k s ≠ .fault f

/-- A run of `k` steps ends normally at the address `stop` (70_reset R204). -/
def EndsNormallyAt (s : State) (k : Nat) (stop : QWord) : Prop :=
  ∃ t : State, Sys2Proof.core.run k s = .next t ∧ t.pc = stop

end Sys2Proof.Safety
end

