-- ==== Sys2Proof/Certificates/Slice0/Obligations.lean ====
section
/-! DEFINITION. The statements for the provers, each from the numbered rules of spec/. `Sys2Proof.Safety` holds the
predicates they are written in. -/

open Sys2Proof Sys2Proof.Machine Sys2Proof.Safety

/-! ### The arithmetic -/

/-- 40_crc32 R120: bit `i` of the reflection is bit `N-1-i`; it is its own inverse; the rule's four examples. -/
def Obligations.ReflectReversesTheBits : Prop :=
  (∀ (n : Nat) (v : BitVec n) (i : Nat), i < n → (reflect v).getLsbD i = v.getLsbD (n - 1 - i))
  ∧ (∀ (n : Nat) (v : BitVec n), reflect (reflect v) = v)
  ∧ reflect (0x01 : Byte) = 0x80 ∧ reflect (0x31 : Byte) = 0x8C
  ∧ reflect (0x00000001 : DWord) = 0x80000000 ∧ reflect (0x1EDC6F41 : DWord) = 0x82F63B78

/-- 40_crc32 R121: the remainder has a degree below that of `p` or is 0, differs from `a` by a multiple of `p`, and is the
only such value. -/
def Obligations.Mod2IsTheUniqueRemainder : Prop :=
  ∀ a p : Nat, p ≠ 0 →
    (mod2 a p = 0 ∨ (mod2 a p).log2 < p.log2)
    ∧ (∃ q, a = clmul q p ^^^ mod2 a p)
    ∧ ∀ q r, (r = 0 ∨ r.log2 < p.log2) → a = clmul q p ^^^ r → r = mod2 a p

/-- 40_crc32 R140: the step is the bit-serial form, at every width. -/
def Obligations.StepIsTheBitSerialForm : Prop :=
  reflectedPoly = reflect (0x1EDC6F41 : DWord)
  ∧ ∀ (n : Nat) (crc : DWord) (data : BitVec n), crc32cStep n crc data = bitSerial crc data

/-- 40_crc32 R141: a wide step is narrower steps, the low half first; and on a little-endian value it is the byte steps of
its bytes in ascending address order. -/
def Obligations.WideStepIsByteStepsInOrder : Prop :=
  (∀ (c : DWord) (v : Word16),
    crc32cStep 16 c v = crc32cStep 8 (crc32cStep 8 c (v.extractLsb' 0 8)) (v.extractLsb' 8 8))
  ∧ (∀ (c : DWord) (v : DWord),
    crc32cStep 32 c v = crc32cStep 16 (crc32cStep 16 c (v.extractLsb' 0 16)) (v.extractLsb' 16 16))
  ∧ (∀ (c : DWord) (v : QWord),
    crc32cStep 64 c v = crc32cStep 32 (crc32cStep 32 c (v.extractLsb' 0 32)) (v.extractLsb' 32 32))
  ∧ ∀ (c : DWord) (bs : List Byte),
    crc32cStep (8 * bs.length) c (BitVec.ofNat (8 * bs.length) (leValue bs)) = crcBytes c bs

/-- 40_crc32 R142: the step is linear over GF(2), and 0 goes to 0. -/
def Obligations.StepIsLinear : Prop :=
  (∀ (n : Nat) (a b : DWord) (v w : BitVec n),
    crc32cStep n (a ^^^ b) (v ^^^ w) = crc32cStep n a v ^^^ crc32cStep n b w)
  ∧ ∀ n : Nat, crc32cStep n 0 0 = 0

/-- 40_crc32 R143: data equal to the low bits of the CRC cancels them; up to 32 bits the step depends on the exclusive-or
alone. -/
def Obligations.DataEqualToTheCrcCancels : Prop :=
  (∀ c : DWord, crc32cStep 8 c (c.extractLsb' 0 8) = c >>> 8)
  ∧ (∀ c : DWord, crc32cStep 16 c (c.extractLsb' 0 16) = c >>> 16)
  ∧ (∀ c : DWord, crc32cStep 32 c c = 0)
  ∧ (∀ c : DWord, crc32cStep 64 c (c.setWidth 64) = 0)
  ∧ ∀ (n : Nat) (c : DWord) (v : BitVec n), n ≤ 32 → crc32cStep n c v = crc32cStep n (c ^^^ v.setWidth 32) 0

/-- 40_crc32 R144: the table form of the byte step. -/
def Obligations.ByteStepIsTheTableForm : Prop :=
  ∀ (c : DWord) (v : Byte), crc32cStep 8 c v = crcTable ((c ^^^ v.setWidth 32).extractLsb' 0 8) ^^^ (c >>> 8)

/-! ### The encoding -/

/-- 30_encoding R80, R81: decoding the bytes of a well-formed instruction gives it back, whatever bytes follow. -/
def Obligations.DecodeOfEncodeIsTheInstruction : Prop :=
  ∀ (c : Ctx) (i : Instr) (rest : List Byte), i.wellFormed c = true → decode c (encode i ++ rest) = .ok (i, rest)

/-- 30_encoding R80, R106: what decodes is the encoding of a well-formed instruction, byte for byte. -/
def Obligations.DecodedBytesAreTheEncoding : Prop :=
  ∀ (c : Ctx) (bytes rest : List Byte) (i : Instr), decode c bytes = .ok (i, rest) →
    i.wellFormed c = true ∧ bytes = encode i ++ rest

/-- 30_encoding R97: the length, and its bounds, both attained. -/
def Obligations.EncodingHasFiveToFifteenBytes : Prop :=
  (∀ (c : Ctx) (i : Instr), i.wellFormed c = true →
    (encode i).length = i.prefixes.length + (if i.rex.isSome then 1 else 0) + 3 + 1
      + (match i.rm with | .sib .. | .sibNoBase .. => 1 | _ => 0)
      + (match i.rm with
        | .reg _                                                     => 0
        | .abs16 _ | .ind16 _ (.disp16 _)                            => 2
        | .ind16 _ (.disp8 _) | .base _ (.disp8 _) | .sib _ _ _ (.disp8 _)   => 1
        | .ind16 _ .absent | .base _ .absent | .sib _ _ _ .absent    => 0
        | .disp32 _ | .sibNoBase .. | .base _ (.disp32 _) | .sib _ _ _ (.disp32 _) => 4)
    ∧ (encode i).length = i.length ∧ 5 ≤ i.length ∧ i.length ≤ Config.maxInsnLen)
  ∧ (∃ (c : Ctx) (i : Instr), i.wellFormed c = true ∧ encode i = [0xF2, 0x0F, 0x38, 0xF0, 0xC0])
  ∧ ∃ (c : Ctx) (i : Instr), i.wellFormed c = true ∧ i.length = 15

/-- 30_encoding R86, R104: the form table. The third opcode byte and the operand-size attribute, by R86's own cases
(`operandBits`), select the source width of what decodes, and REX.W the destination. -/
def Obligations.RowIsSelectedByTheFields : Prop :=
  ∀ (c : Ctx) (bytes rest : List Byte) (i : Instr), decode c bytes = .ok (i, rest) →
    (srcSizeOf i).bits
        = (if i.wide then operandBits c.mode c.defaultOperandSize (i.prefixes.contains .opSize) i.rexW else 8)
    ∧ destSizeOf i = if i.rexW then .r64 else .r32

/-- 30_encoding R91 to R94: of what decodes with a memory source, operand 2 is a row of the 16-bit table exactly when the
address-size attribute, by R91's own cases (`addressBits`), is 16; and the attribute the addresses are computed at is
that one. -/
def Obligations.AddressSizeSelectsTheTable : Prop :=
  (∀ (c : Ctx) (bytes rest : List Byte) (i : Instr), decode c bytes = .ok (i, rest) → ¬ IsRegister i.rm →
    (IsAddress16 i.rm ↔ addressBits c.mode c.defaultAddressSize (i.prefixes.contains .addrSize) = 16))
  ∧ ∀ (c : Ctx) (has67 : Bool),
    addressBits c.mode c.defaultAddressSize has67 = match asz c has67 with | .a16 => 16 | .a32 => 32 | .a64 => 64

/-- 30_encoding R84, R106(a): outside `Long64` nothing with a REX prefix decodes, and such an instruction has no
meaning. -/
def Obligations.NoRexOutsideLong64 : Prop :=
  (∀ (c : Ctx) (bytes rest : List Byte) (i : Instr), c.mode ≠ .long64 → decode c bytes = .ok (i, rest) → i.rex = none)
  ∧ ∀ (i : Instr) (s : State), s.env.ctx.mode ≠ .long64 → i.rex ≠ none → exec i s = .refused .notEncodable

/-- 30_encoding R83: the prefixes of what decodes keep the discipline. -/
def Obligations.DecodedPrefixesKeepTheDiscipline : Prop :=
  ∀ (c : Ctx) (bytes rest : List Byte) (i : Instr), decode c bytes = .ok (i, rest) →
    i.prefixes.count .repne = 1 ∧ i.prefixes.count .lock ≤ 1 ∧ i.prefixes.count .opSize ≤ 1
    ∧ i.prefixes.count .addrSize ≤ 1 ∧ i.prefixes.countP LegacyPrefix.isSeg ≤ 1
    ∧ ∀ k b, k < i.prefixes.length → bytes[k]? = some b → b ≠ 0xF3

/-- 30_encoding R83: legacy prefixes may stand in any order, and the order changes nothing. -/
def Obligations.PrefixOrderDoesNotMatter : Prop :=
  ∀ (i : Instr) (ps : List LegacyPrefix) (s : State), ps.Perm i.prefixes → exec (withPrefixes ps i) s = exec i s

/-- 95_test_vectors 3.1 to 3.5: one word of each form, as the spec writes it out. -/
def Obligations.WordsOfTheSpecDecode : Prop :=
  let l : Ctx := { mode := .long64, defaultOperandSize := .bits32, defaultAddressSize := .bits32 }
  let r : Ctx := { mode := .real, defaultOperandSize := .bits16, defaultAddressSize := .bits16 }
  decode l [0xF2, 0x0F, 0x38, 0xF0, 0xC3] = .ok (.crc32R32Rm8 [.repne] 0 (.reg 3), [])
  ∧ decode l [0xF2, 0x41, 0x0F, 0x38, 0xF0, 0xC1]
      = .ok (.crc32R32Rm8Rex [.repne] ⟨false, false, true⟩ 0 (.reg 1), [])
  ∧ decode l [0x66, 0xF2, 0x0F, 0x38, 0xF1, 0xC1] = .ok (.crc32R32Rm16 [.opSize, .repne] none 0 (.reg 1), [])
  ∧ decode r [0x66, 0xF2, 0x0F, 0x38, 0xF1, 0xC1] = .ok (.crc32R32Rm32 [.opSize, .repne] none 0 (.reg 1), [])
  ∧ decode l [0xF2, 0x48, 0x0F, 0x38, 0xF0, 0x46, 0x08]
      = .ok (.crc32R64Rm8 [.repne] ⟨false, false, false⟩ 0 (.base 6 (.disp8 8)), [])
  ∧ decode l [0xF2, 0x4A, 0x0F, 0x38, 0xF1, 0x04, 0xA3]
      = .ok (.crc32R64Rm64 [.repne] ⟨false, true, false⟩ 0 (.sib 2 4 3 .absent), [])

/-! ### Registers -/

/-- 10_state R22: the views of a register are slices of the one 64-bit register. -/
def Obligations.ViewsAreSlicesOfTheRegister : Prop :=
  ∀ (s : State) (i : RegNum),
    s.r32 i = (s.r64 i).extractLsb' 0 32 ∧ s.r16 i = (s.r64 i).extractLsb' 0 16 ∧ s.r8lo i = (s.r64 i).extractLsb' 0 8
    ∧ ∀ j : Fin 4, j.val = i.val → s.r8hi j = (s.r64 i).extractLsb' 8 8

/-- 10_state R23: an `r64` destination is written whole, with the zero-extended result. -/
def Obligations.R64DestinationHoldsTheZeroExtendedResult : Prop :=
  ∀ (i : Instr) (s t : State), destSizeOf i = .r64 → exec i s = .next t →
    ∃ data, readSource (srcSizeOf i) i s = .ok data
      ∧ t.r64 (destReg i) = (crc32cStep (srcSizeOf i).bits (s.r32 (destReg i)) data).setWidth 64

/-- 10_state R24: an `r32` destination holds the result below; above, 0 in `Long64`, and elsewhere the free value, which
the counter then passes (the model's form of "unspecified", log entry 6): by one, unless the pc becomes a free value too
(log entry 29). -/
def Obligations.R32DestinationUpperHalf : Prop :=
  ∀ (i : Instr) (s t : State), destSizeOf i = .r32 → exec i s = .next t →
    ∃ data, readSource (srcSizeOf i) i s = .ok data
      ∧ t.r32 (destReg i) = crc32cStep (srcSizeOf i).bits (s.r32 (destReg i)) data
      ∧ (s.env.ctx.mode = .long64 → (t.gpr (destReg i)).hi = 0)
      ∧ (s.env.ctx.mode ≠ .long64 → (t.gpr (destReg i)).hi = Config.freeUpper s.free ∧ s.free < t.free
        ∧ (s.pc.toNat + i.length < 2 ^ s.env.ctx.pcRegWidth → t.free = s.free + 1))

/-! ### Results and completion -/

/-- 40_crc32 R124, 30_encoding R89, R90: row 1 with a register source; codes 4 to 7 are AH, CH, DH, BH. -/
def Obligations.ByteFormWithoutRexOnRegisters : Prop :=
  ∀ (pfx : List LegacyPrefix) (reg code : BitVec 3) (s : State),
    Executable (.crc32R32Rm8 pfx reg (.reg code)) s →
    CompletesWith (.crc32R32Rm8 pfx reg (.reg code)) s (numberOf false reg)
      (crc32cStep 8 (s.r32 (numberOf false reg))
        (if code.toNat < 4 then (s.r64 (Fin.ofNat 16 code.toNat)).extractLsb' 0 8
          else (s.r64 (Fin.ofNat 16 (code.toNat - 4))).extractLsb' 8 8))

/-- 40_crc32 R125, 30_encoding R89, R90: row 2 with a register source, always the low byte of the register named. -/
def Obligations.ByteFormWithRexOnRegisters : Prop :=
  ∀ (pfx : List LegacyPrefix) (x : RexBits) (reg code : BitVec 3) (s : State),
    Executable (.crc32R32Rm8Rex pfx x reg (.reg code)) s →
    CompletesWith (.crc32R32Rm8Rex pfx x reg (.reg code)) s (numberOf x.r reg)
      (crc32cStep 8 (s.r32 (numberOf x.r reg)) ((s.r64 (numberOf x.b code)).extractLsb' 0 8))

/-- 40_crc32 R126: row 3 with a register source. -/
def Obligations.WordFormOnRegisters : Prop :=
  ∀ (pfx : List LegacyPrefix) (x : Option RexBits) (reg code : BitVec 3) (s : State),
    Executable (.crc32R32Rm16 pfx x reg (.reg code)) s →
    CompletesWith (.crc32R32Rm16 pfx x reg (.reg code)) s (numberOf (bitR x) reg)
      (crc32cStep 16 (s.r32 (numberOf (bitR x) reg)) ((s.r64 (numberOf (bitB x) code)).extractLsb' 0 16))

/-- 40_crc32 R127: row 4 with a register source. -/
def Obligations.DoubleWordFormOnRegisters : Prop :=
  ∀ (pfx : List LegacyPrefix) (x : Option RexBits) (reg code : BitVec 3) (s : State),
    Executable (.crc32R32Rm32 pfx x reg (.reg code)) s →
    CompletesWith (.crc32R32Rm32 pfx x reg (.reg code)) s (numberOf (bitR x) reg)
      (crc32cStep 32 (s.r32 (numberOf (bitR x) reg)) ((s.r64 (numberOf (bitB x) code)).extractLsb' 0 32))

/-- 40_crc32 R128: row 5 with a register source. -/
def Obligations.ByteFormToR64OnRegisters : Prop :=
  ∀ (pfx : List LegacyPrefix) (x : RexBits) (reg code : BitVec 3) (s : State),
    Executable (.crc32R64Rm8 pfx x reg (.reg code)) s →
    CompletesWith (.crc32R64Rm8 pfx x reg (.reg code)) s (numberOf x.r reg)
      (crc32cStep 8 (s.r32 (numberOf x.r reg)) ((s.r64 (numberOf x.b code)).extractLsb' 0 8))

/-- 40_crc32 R129: row 6 with a register source. -/
def Obligations.QuadWordFormOnRegisters : Prop :=
  ∀ (pfx : List LegacyPrefix) (x : RexBits) (reg code : BitVec 3) (s : State),
    Executable (.crc32R64Rm64 pfx x reg (.reg code)) s →
    CompletesWith (.crc32R64Rm64 pfx x reg (.reg code)) s (numberOf x.r reg)
      (crc32cStep 64 (s.r32 (numberOf x.r reg)) (s.r64 (numberOf x.b code)))

/-- 40_crc32 R130, 20_memory R52, R54, R57: every one of the six forms with a memory source that can be read; the data is
the little-endian value of its bytes. For an operand that passes linear address FFFFFFFFH outside `Long64`, where the bytes
stand is the model's reading (log entry 14, in `ReadableAt`). -/
def Obligations.MemoryFormsComplete : Prop :=
  ∀ (i : Instr) (s : State) (pas : List Nat),
    Executable i s → ¬ IsRegister i.rm →
    ReadableAt s.env (operandSegment i s.env.ctx.mode) (effectiveAddress i s) (srcSizeOf i).bytes pas →
    CompletesWith i s (destReg i)
      (crc32cStep (srcSizeOf i).bits (s.r32 (destReg i))
        (BitVec.ofNat (srcSizeOf i).bits (leValue (pas.map (readByte s.mem)))))

/-- 40_crc32 R130, 10_state R27, R28, 20_memory R66: the frame of all six instructions. -/
def Obligations.OnlyDestinationAndPcChange : Prop :=
  ∀ (i : Instr) (s t : State), exec i s = .next t →
    (∀ r, r ≠ destReg i → t.gpr r = s.gpr r)
    ∧ s.pc.toNat + i.length ≤ 2 ^ s.env.ctx.pcWidth
    ∧ (s.pc.toNat + i.length < 2 ^ s.env.ctx.pcRegWidth → t.pc.toNat = s.pc.toNat + i.length)
    ∧ t.flags = s.flags
    ∧ (∀ a, readByte t.mem a = readByte s.mem a)
    ∧ t.env = s.env

/-- 40_crc32 R127: `CRC32` of a register with itself, 32 bits wide, leaves 0. -/
def Obligations.DoubleWordFormOfARegisterWithItselfIsZero : Prop :=
  ∀ (pfx : List LegacyPrefix) (x : Option RexBits) (reg : BitVec 3) (s : State), bitR x = bitB x →
    Executable (.crc32R32Rm32 pfx x reg (.reg reg)) s →
    CompletesWith (.crc32R32Rm32 pfx x reg (.reg reg)) s (numberOf (bitR x) reg) 0

/-- 40_crc32 R128: row 5 and row 2 on the same operands have the same outcome. -/
def Obligations.ByteFormsWithRexAgree : Prop :=
  ∀ (pfx : List LegacyPrefix) (x : RexBits) (reg : BitVec 3) (rm : Rm) (s : State),
    exec (.crc32R64Rm8 pfx x reg rm) s = exec (.crc32R32Rm8Rex pfx x reg rm) s

/-- 30_encoding R108: each intrinsic gives the new destination value of its form, from the old one and the source. -/
def Obligations.IntrinsicsGiveTheNewDestination : Prop :=
  ∀ (i : Instr) (s t : State) (code : BitVec 3), i.rm = .reg code → exec i s = .next t →
    match i with
    | .crc32R32Rm8 _ _ _ | .crc32R32Rm8Rex _ _ _ _ | .crc32R64Rm8 _ _ _ _ =>
      t.r32 (destReg i) = mmCrc32U8 (s.r32 (destReg i)) (byteSource i.rex code s)
    | .crc32R32Rm16 _ x _ _ =>
      t.r32 (destReg i) = mmCrc32U16 (s.r32 (destReg i)) (s.r16 (numberOf (bitB x) code))
    | .crc32R32Rm32 _ x _ _ =>
      t.r32 (destReg i) = mmCrc32U32 (s.r32 (destReg i)) (s.r32 (numberOf (bitB x) code))
    | .crc32R64Rm64 _ x _ _ =>
      t.r64 (destReg i) = mmCrc32U64 (s.r64 (destReg i)) (s.r64 (numberOf x.b code))

/-- 70_reset R201 item 3, R202: two instructions on one destination are the composition of their steps. -/
def Obligations.SequenceOnOneDestinationComposes : Prop :=
  ∀ (i j : Instr) (s t u : State), destReg j = destReg i → exec i s = .next t → exec j t = .next u →
    ∃ data data', readSource (srcSizeOf i) i s = .ok data ∧ readSource (srcSizeOf j) j t = .ok data'
      ∧ u.r32 (destReg i)
        = crc32cStep (srcSizeOf j).bits (crc32cStep (srcSizeOf i).bits (s.r32 (destReg i)) data) data'

/-! ### The memory operand -/

/-- 30_encoding R92: the 16-bit addressing table. -/
def Obligations.Address16IsTheTable : Prop :=
  ∀ (i : Instr) (s : State) (rm : BitVec 3) (d : Disp16), i.rm = .ind16 rm d →
    ((effectiveAddress i s).toNat : Int)
      = ((match rm.toNat with
          | 0 => (s.r64 3).toNat + (s.r64 6).toNat
          | 1 => (s.r64 3).toNat + (s.r64 7).toNat
          | 2 => (s.r64 5).toNat + (s.r64 6).toNat
          | 3 => (s.r64 5).toNat + (s.r64 7).toNat
          | 4 => (s.r64 6).toNat
          | 5 => (s.r64 7).toNat
          | 6 => (s.r64 5).toNat
          | _ => (s.r64 3).toNat : Nat)
        + (match d with | .absent => 0 | .disp8 v => v.toInt | .disp16 v => v.toNat)) % 2 ^ 16

/-- 30_encoding R93, R94, R95: base plus scaled index plus displacement, modulo the address size; index number 4 is no
index, `r/m` and `base` are extended by REX.B, `index` by REX.X. The address size `w` is R91's (`addressBits`). -/
def Obligations.WideAddressIsBaseIndexDisplacement : Prop :=
  ∀ (i : Instr) (s : State) (w : Nat), i.wellFormed s.env.ctx = true →
    w = addressBits s.env.ctx.mode s.env.ctx.defaultAddressSize (i.prefixes.contains .addrSize) →
    (∀ rm d, i.rm = .base rm d →
      ((effectiveAddress i s).toNat : Int)
        = ((s.r64 (numberOf i.rexBits.b rm)).toNat
          + (match d with | .absent => 0 | .disp8 v => v.toInt | .disp32 v => v.toInt)) % 2 ^ w)
    ∧ (∀ sc ix b d, i.rm = .sib sc ix b d →
      ((effectiveAddress i s).toNat : Int)
        = ((s.r64 (numberOf i.rexBits.b b)).toNat
          + (if numberOf i.rexBits.x ix = 4 then 0 else (s.r64 (numberOf i.rexBits.x ix)).toNat * 2 ^ sc.toNat)
          + (match d with | .absent => 0 | .disp8 v => v.toInt | .disp32 v => v.toInt)) % 2 ^ w)
    ∧ ∀ sc ix d, i.rm = .sibNoBase sc ix d →
      ((effectiveAddress i s).toNat : Int)
        = ((if numberOf i.rexBits.x ix = 4 then 0 else (s.r64 (numberOf i.rexBits.x ix)).toNat * 2 ^ sc.toNat)
          + d.toInt) % 2 ^ w

/-- 30_encoding R93, R94: a disp32 alone is relative to the next instruction in `Long64`, and absolute elsewhere; a disp16
alone is absolute (R92). -/
def Obligations.DisplacementAloneIsRipRelativeInLong64 : Prop :=
  ∀ (i : Instr) (s : State),
    (∀ d, i.rm = .disp32 d → s.env.ctx.mode = .long64 →
      ((effectiveAddress i s).toNat : Int)
        = (s.pc.toNat + i.length + d.toInt) % 2 ^ (if LegacyPrefix.addrSize ∈ i.prefixes then 32 else 64))
    ∧ (∀ d, i.rm = .disp32 d → s.env.ctx.mode ≠ .long64 → (effectiveAddress i s).toNat = d.toNat)
    ∧ ∀ d, i.rm = .abs16 d → (effectiveAddress i s).toNat = d.toNat

/-- 30_encoding R92 to R94, R96: the default segment, and the override that replaces it. -/
def Obligations.SegmentOfTheOperand : Prop :=
  ∀ (i : Instr) (c : Ctx), i.wellFormed c = true →
    let dflt : SegReg :=
      match i.rm with
      | .ind16 rm _  => if rm = 2 ∨ rm = 3 ∨ rm = 6 then .ss else .ds
      | .base rm _   => if (rm = 4 ∨ rm = 5) ∧ i.rexBits.b = false then .ss else .ds
      | .sib _ _ b _ => if (b = 4 ∨ b = 5) ∧ i.rexBits.b = false then .ss else .ds
      | _            => .ds
    ((∀ o, LegacyPrefix.seg o ∉ i.prefixes) → operandSegment i c.mode = dflt)
    ∧ ∀ o, LegacyPrefix.seg o ∈ i.prefixes →
      operandSegment i c.mode = if c.mode = .long64 ∧ o ≠ .fs ∧ o ≠ .gs then dflt else o

/-- 20_memory R63: the linear address. -/
def Obligations.LinearAddressIsBasePlusOffset : Prop :=
  ∀ (e : Env) (seg : SegReg) (ea : QWord),
    (e.linear seg ea).toNat
      = if e.ctx.mode = .long64 then
          ((if seg = .fs ∨ seg = .gs then (e.segment seg).base.toNat else 0) + ea.toNat) % 2 ^ 64
        else ((e.segment seg).base.toNat + ea.toNat) % 2 ^ 32

/-- 20_memory R53: a narrower read of a stored 32-bit value sees the slice at its offset. -/
def Obligations.NarrowReadsSeeSlicesOfAStoredValue : Prop :=
  ∀ (m : Memory) (a : Nat) (v : DWord),
    v = BitVec.ofNat 32 (leValue ((List.range 4).map fun j => readByte m (a + j))) →
    (∀ k, k < 4 → BitVec.ofNat 8 (leValue [readByte m (a + k)]) = v.extractLsb' (8 * k) 8)
    ∧ ∀ k, k < 2 →
      BitVec.ofNat 16 (leValue [readByte m (a + 2 * k), readByte m (a + 2 * k + 1)]) = v.extractLsb' (16 * k) 16

/-- 20_memory R51, R52: byte `k` of an operand, in address order, is bits `8k+7` to `8k` of its value. -/
def Obligations.OperandBytesAreLittleEndian : Prop :=
  ∀ (bs : List Byte) (k : Nat) (b : Byte), bs[k]? = some b →
    (BitVec.ofNat (8 * bs.length) (leValue bs)).extractLsb' (8 * k) 8 = b

/-! ### Exceptions -/

/-- 60_exceptions R161, 30_encoding R105: `#UD` when the feature is absent or a `LOCK` prefix is used, in every mode,
whatever the source, and wherever the pc is. -/
def Obligations.UdComesFirst : Prop :=
  ∀ (i : Instr) (s : State), i.wellFormed s.env.ctx = true →
    (s.env.sse42 = false ∨ LegacyPrefix.lock ∈ i.prefixes) → exec i s = .fault .ud

/-- 60_exceptions R160: an instruction whose source is a register raises no exception but `#UD`. -/
def Obligations.RegisterSourceRaisesOnlyUd : Prop :=
  ∀ (i : Instr) (s : State) (f : Fault), IsRegister i.rm → exec i s = .fault f →
    f = .ud ∧ (s.env.sse42 = false ∨ LegacyPrefix.lock ∈ i.prefixes)

/-- 60_exceptions R162 to R168: an exception other than `#UD` is one that applies to the memory source: its condition in
the list of the mode holds, or, the model's own cases in `Applies`, the operand is barred (log entry 4) or a translation of
a wrapped linear address faults (log entry 14). -/
def Obligations.RaisedExceptionApplies : Prop :=
  ∀ (i : Instr) (s : State) (f : Fault), exec i s = .fault f → f ≠ .ud →
    ¬ IsRegister i.rm
    ∧ Applies s.env (operandSegment i s.env.ctx.mode) (effectiveAddress i s) (srcSizeOf i).bytes f

/-- 60_exceptions R162 to R168: where an exception applies to the memory source, one that applies is raised, and where
only one applies, it is that one. `Applies` has two cases that are the model's own: a barred operand in any mode (log entry
4) and the translation of a linear address wrapped modulo 2^32 (log entry 14). -/
def Obligations.ApplicableExceptionIsRaised : Prop :=
  ∀ (i : Instr) (s : State) (f : Fault), Enabled i s → ¬ IsRegister i.rm →
    Applies s.env (operandSegment i s.env.ctx.mode) (effectiveAddress i s) (srcSizeOf i).bytes f →
    (∃ g, exec i s = .fault g
      ∧ Applies s.env (operandSegment i s.env.ctx.mode) (effectiveAddress i s) (srcSizeOf i).bytes g)
    ∧ ((∀ g, Applies s.env (operandSegment i s.env.ctx.mode) (effectiveAddress i s) (srcSizeOf i).bytes g → g = f) →
      exec i s = .fault f)

/-- 20_memory R59: in real-address mode an operand with a byte above offset 0FFFFH raises `#SS(0)` through SS, else
`#GP(0)`; one that lies inside raises nothing, unless a stricter `SegCheck` bars it (R58, the model's form in log entry
4). -/
def Obligations.RealModeOperandEndsAtFFFF : Prop :=
  ∀ (i : Instr) (s : State), Enabled i s → ¬ IsRegister i.rm → s.env.ctx.mode = .real →
    (0xFFFF < (effectiveAddress i s).toNat + (srcSizeOf i).bytes - 1 →
      exec i s = .fault (if operandSegment i .real = .ss then .ss0 else .gp0))
    ∧ ((effectiveAddress i s).toNat + (srcSizeOf i).bytes - 1 ≤ 0xFFFF →
      ¬ Barred (s.env.segment (operandSegment i .real)) (effectiveAddress i s).toNat (srcSizeOf i).bytes →
      ∀ f, exec i s ≠ .fault f)

/-- 60_exceptions R163: real-address mode has no `#PF` and no `#AC`. -/
def Obligations.RealModeRaisesNoPageOrAlignmentFault : Prop :=
  ∀ (i : Instr) (s : State) (f : Fault), s.env.ctx.mode = .real → exec i s = .fault f → f = .ud ∨ f = .gp0 ∨ f = .ss0

/-- 20_memory R62: in `Long64`, with paging off and alignment unchecked, an operand with a byte whose address has bits
63:47 not all equal raises `#SS(0)` through SS, else `#GP(0)`. -/
def Obligations.NonCanonicalOperandFaults : Prop :=
  ∀ (i : Instr) (s : State) (k : Nat), Enabled i s → ¬ IsRegister i.rm → s.env.ctx.mode = .long64 →
    s.env.paging = .off → s.env.alignCheck = false → k < (srcSizeOf i).bytes →
    (let la := s.env.linear (operandSegment i .long64) (effectiveAddress i s)
     2 ^ 64 ≤ la.toNat + k
     ∨ ∃ j, 47 ≤ j ∧ j < 64 ∧ (la + BitVec.ofNat 64 k).getLsbD j ≠ (la + BitVec.ofNat 64 k).getLsbD 63) →
    exec i s = .fault (if operandSegment i .long64 = .ss then .ss0 else .gp0)

/-- 60_exceptions R165: compatibility mode has the exceptions of protected mode, and the rest of its outcomes too. -/
def Obligations.CompatBehavesAsProtected : Prop :=
  ∀ (i : Instr) (s : State), exec i (inMode .compat s) = mapNext (inMode .compat) (exec i (inMode .prot s))

/-- 60_exceptions R167: for a given mode and address, whether an exception is raised, and which, does not depend on the
CRC, on the data, or on anything else in registers, pc and memory. -/
def Obligations.FaultsDoNotDependOnData : Prop :=
  ∀ (i : Instr) (s s' : State) (f : Fault), s'.env = s.env → s'.free = s.free →
    effectiveAddress i s' = effectiveAddress i s → (exec i s' = .fault f ↔ exec i s = .fault f)

/-- 60_exceptions R174: with alignment unchecked and paging off, the privilege level changes nothing. -/
def Obligations.PrivilegeLevelMattersOnlyToTheChecks : Prop :=
  ∀ (i : Instr) (s : State) (c : Fin 4), s.env.alignCheck = false → s.env.paging = .off →
    exec i (atLevel c s) = mapNext (atLevel c) (exec i s)

/-- 10_state R28: no flag is written, and none is read. -/
def Obligations.FlagsAreNeitherReadNorWritten : Prop :=
  (∀ (i : Instr) (s t : State), exec i s = .next t → t.flags = s.flags)
  ∧ ∀ (i : Instr) (s : State) (f : DWord), exec i (withFlags f s) = mapNext (withFlags f) (exec i s)

/-! ### The step -/

/-- 00_scope R17: a step runs the decoded instruction, and adds nothing to it. -/
def Obligations.StepRunsTheDecodedInstruction : Prop :=
  ∀ (s : State) (i : Instr) (rest : List Byte),
    decode s.env.ctx (fetchFrom s 0 Config.maxInsnLen).1 = .ok (i, rest) → step s = exec i s

/-- 00_scope R17, 10_state R26: where the bytes of a well-formed instruction stand at the pc, the step runs it, whatever
stands behind them and whether or not that can be fetched. -/
def Obligations.CodeAtThePcIsRun : Prop :=
  ∀ (s : State) (i : Instr), i.wellFormed s.env.ctx = true → CodeAtPc s (encode i) → step s = exec i s

/-- 10_state R26: byte `k` of the instruction is read at the linear address of `CS : pc + k`, translated. That `pc + k`
does not wrap is the model's reading (log entry 12). -/
def Obligations.FetchReadsThroughCodeSegment : Prop :=
  ∀ (s : State) (k pa : Nat), fetchAddr s k = .ok pa →
    s.env.translate (s.env.linear .cs (s.pc + BitVec.ofNat 64 k)) = .ok pa
    ∧ (s.pc + BitVec.ofNat 64 k).toNat = s.pc.toNat + k

/-- 00_scope R6, 30_encoding R106: bytes that are no admitted encoding are refused, by name. -/
def Obligations.OtherBytesAreRefused : Prop :=
  ∀ (s : State) (e : DecodeError), (∀ k, k < Config.maxInsnLen → ∃ pa, fetchAddr s k = .ok pa) →
    decode s.env.ctx (fetchFrom s 0 Config.maxInsnLen).1 = .error e → step s = .refused (.notCrc32 e)

/-- 10_state R27: an instruction that raises nothing is refused when its end exceeds the top of the pc width. -/
def Obligations.PassingTheTopOfThePcIsRefused : Prop :=
  ∀ (i : Instr) (s : State) (data : BitVec (srcSizeOf i).bits), Enabled i s →
    readSource (srcSizeOf i) i s = .ok data →
    2 ^ (match s.env.ctx.mode with
      | .long64          => 64
      | .real | .v8086   => 16
      | .prot | .compat  => if s.env.ctx.defaultOperandSize = .bits16 then 16 else 32) < s.pc.toNat + i.length →
    exec i s = .refused .pastTop

/-- 10_state R27, R20: an instruction whose end is the top of the pc width exactly completes. Its pc is 10000H where the
width is 16, which the 32-bit pc register holds; where the register cannot hold the top, the pc is the free value (the
model's form of what the spec does not state, log entry 29). -/
def Obligations.EndingAtTheTopOfThePcCompletes : Prop :=
  ∀ (i : Instr) (s : State) (data : BitVec (srcSizeOf i).bits), Enabled i s →
    readSource (srcSizeOf i) i s = .ok data → s.pc.toNat + i.length = 2 ^ s.env.ctx.pcWidth →
    ∃ t, exec i s = .next t
      ∧ t.r32 (destReg i) = crc32cStep (srcSizeOf i).bits (s.r32 (destReg i)) data
      ∧ (s.env.ctx.pcWidth = 16 → t.pc = 0x10000)
      ∧ (s.env.ctx.pcWidth ≠ 16 → ∃ k, s.free ≤ k ∧ t.free = k + 1
        ∧ t.pc.toNat = (Config.freePc k).toNat % 2 ^ s.env.ctx.pcRegWidth)

/-- The model's own (log entries 8 and 20): an instruction placed at the reset state's pc is the first to run. -/
def Obligations.PlacedInstructionIsTheFirstToRun : Prop :=
  ∀ i : Instr, i.wellFormed Config.resetCtx = true →
    step (State.reset.withCode (encode i)) = exec i (State.reset.withCode (encode i))

/-- Every step keeps memory canonical and the pc a value of its register that does not exceed the top (10_state R20,
R27). -/
def Obligations.StepKeepsTheInvariant : Prop := ∀ s t : State, Inv s → step s = .next t → Inv t

/-- The invariant holds at reset. -/
def Obligations.ResetHasTheInvariant : Prop := Inv State.reset

/-- 20_memory R66, R69, R71: however long a run, memory, and with it the program, is as it was at the start, and so are
the flags and the parameters. -/
def Obligations.RunsNeverChangeMemory : Prop :=
  ∀ (k : Nat) (s t : State), Sys2Proof.core.run k s = .next t →
    (∀ a, readByte t.mem a = readByte s.mem a) ∧ t.mem = s.mem ∧ t.flags = s.flags ∧ t.env = s.env

/-- 10_state R20, R24(b): outside `Long64` bits 63:32 of the registers are not architectural: no step depends on
them. -/
def Obligations.UpperHalvesDoNotMatterOutsideLong64 : Prop :=
  ∀ (s : State) (u : Vector DWord 16), s.env.ctx.mode ≠ .long64 → OutcomesSameButUppers (step s) (step (withUppers u s))
end

