-- ==== Sys2Proof/Laws/Decode.lean ====
section
/-! SUPPORT. The parts of the decoder and the encoder undo each other, one lemma per part. -/

namespace Sys2Proof

/-! ### Bytes of a displacement -/

/-- Two neighbouring slices put together are the slice of both. -/
theorem slice_append {w n m : Nat} (x : BitVec w) (at_ : Nat) :
    x.extractLsb' (at_ + m) n ++ x.extractLsb' at_ m = x.extractLsb' at_ (n + m) := by
  apply BitVec.eq_of_getLsbD_eq
  intro i hi
  simp only [BitVec.getLsbD_append, BitVec.getLsbD_extractLsb', hi, decide_true, Bool.true_and]
  by_cases h : i < m
  · simp [h]
  · have : at_ + m + (i - m) = at_ + i := by omega
    simp [h, this, show i - m < n by omega]

/-- A slice inside the low part of an append. -/
theorem append_slice_low {n m k j : Nat} (a : BitVec n) (b : BitVec m) (h : k + j ≤ m) :
    (a ++ b).extractLsb' k j = b.extractLsb' k j := by
  apply BitVec.eq_of_getLsbD_eq
  intro i hi
  simp [BitVec.getLsbD_append, hi, show k + i < m by omega]

/-- A slice that is the whole high part of an append. -/
theorem append_slice_high {n m : Nat} (a : BitVec n) (b : BitVec m) : (a ++ b).extractLsb' m n = a := by
  apply BitVec.eq_of_getLsbD_eq
  intro i hi
  simp [BitVec.getLsbD_append, hi]

theorem slice_whole {n : Nat} (a : BitVec n) : a.extractLsb' 0 n = a := by
  apply BitVec.eq_of_getLsbD_eq
  intro i hi
  simp [hi]

theorem take16_bytes16 (v : Word16) (rest : List Byte) : take16 (bytes16 v ++ rest) = some (v, rest) := by
  have : (v.extractLsb' 8 8 ++ v.extractLsb' 0 8 : BitVec 16) = v :=
    (slice_append (n := 8) (m := 8) v 0).trans (slice_whole v)
  simp [bytes16, take16, this]

theorem take32_bytes32 (v : DWord) (rest : List Byte) : take32 (bytes32 v ++ rest) = some (v, rest) := by
  have h : (v.extractLsb' 24 8 ++ v.extractLsb' 16 8 ++ v.extractLsb' 8 8 ++ v.extractLsb' 0 8 : BitVec 32) = v := by
    have h1 := slice_append (n := 8) (m := 8) v 16
    have h2 := slice_append (n := 16) (m := 8) v 8
    have h3 := slice_append (n := 24) (m := 8) v 0
    simp only [Nat.reduceAdd] at h1 h2 h3
    rw [h1, h2, h3]
    exact slice_whole v
  simp [bytes32, take32, h]

theorem bytes16_append (b0 b1 : Byte) : bytes16 (b1 ++ b0) = [b0, b1] := by
  unfold bytes16
  rw [append_slice_low b1 b0 (by omega), slice_whole, append_slice_high b1 b0]

theorem bytes32_append (b0 b1 b2 b3 : Byte) : bytes32 (b3 ++ b2 ++ b1 ++ b0) = [b0, b1, b2, b3] := by
  have up {n k j : Nat} (a : BitVec n) (b : Byte) : (a ++ b).extractLsb' (8 + k) j = a.extractLsb' k j := by
    apply BitVec.eq_of_getLsbD_eq
    intro i hi
    simp [BitVec.getLsbD_append, hi, show ¬ 8 + k + i < 8 by omega, show 8 + k + i - 8 = k + i by omega]
  unfold bytes32
  congr 1
  · rw [append_slice_low _ b0 (by omega), slice_whole]
  · congr 1
    · exact (up (k := 0) _ b0).trans ((append_slice_low _ b1 (by omega)).trans (slice_whole b1))
    · congr 1
      · exact (up (k := 8) _ b0).trans ((up (k := 0) _ b1).trans ((append_slice_low _ b2 (by omega)).trans (slice_whole b2)))
      · congr 1
        exact (up (k := 16) _ b0).trans ((up (k := 8) _ b1).trans (append_slice_high b3 b2))

theorem take16_some {bs rest : List Byte} {v : Word16} (h : take16 bs = some (v, rest)) : bs = bytes16 v ++ rest := by
  match bs with
  | b0 :: b1 :: bs =>
    simp only [take16, Option.some.injEq, Prod.mk.injEq] at h
    obtain ⟨rfl, rfl⟩ := h
    simp [bytes16_append]

theorem take32_some {bs rest : List Byte} {v : DWord} (h : take32 bs = some (v, rest)) : bs = bytes32 v ++ rest := by
  match bs with
  | b0 :: b1 :: b2 :: b3 :: bs =>
    simp only [take32, Option.some.injEq, Prod.mk.injEq] at h
    obtain ⟨rfl, rfl⟩ := h
    simp [bytes32_append]

/-! ### Prefix and REX bytes -/

@[simp] theorem prefixOfByte_byte (p : LegacyPrefix) : prefixOfByte p.byte = some p := by
  rcases p with _ | _ | _ | _ | s <;> [decide; decide; decide; decide; cases s <;> decide]

theorem byte_of_prefixOfByte {b : Byte} {p : LegacyPrefix} (h : prefixOfByte b = some p) : p.byte = b := by
  unfold prefixOfByte at h
  repeat' split at h
  all_goals first
    | (simp only [Option.some.injEq] at h; subst h; subst_vars; rfl)
    | simp at h

theorem scanPrefixes_append (ps : List LegacyPrefix) {bs : List Byte} (h : ∀ b ∈ bs.head?, prefixOfByte b = none) :
    scanPrefixes (ps.map LegacyPrefix.byte ++ bs) = (ps, bs) := by
  induction ps with
  | nil =>
    cases bs with
    | nil => rfl
    | cons b bs => simp [scanPrefixes, h b (by simp)]
  | cons p ps ih => simp [scanPrefixes, ih]

theorem scanPrefixes_eq (bs : List Byte) : bs = (scanPrefixes bs).1.map LegacyPrefix.byte ++ (scanPrefixes bs).2 := by
  induction bs with
  | nil => rfl
  | cons b bs ih =>
    unfold scanPrefixes
    split
    · rename_i p hp
      simp only [List.map_cons, List.cons_append, byte_of_prefixOfByte hp]
      rw [← ih]
    · rfl

@[simp] theorem isRexByte_byte (x : Rex) : isRexByte x.byte = true := by
  rcases x with ⟨_ | _, _ | _, _ | _, _ | _⟩ <;> decide

@[simp] theorem rexOfByte_byte (x : Rex) : rexOfByte x.byte = x := by
  rcases x with ⟨_ | _, _ | _, _ | _, _ | _⟩ <;> decide

@[simp] theorem prefixOfByte_rex (x : Rex) : prefixOfByte x.byte = none := by
  rcases x with ⟨_ | _, _ | _, _ | _, _ | _⟩ <;> decide

theorem byte_rexOfByte (b : Byte) (h : isRexByte b = true) : (rexOfByte b).byte = b := by
  revert h; revert b; decide

/-! ### ModRM and SIB -/

theorem modrm_fields (m : BitVec 2) (r c : BitVec 3) :
    (m ++ r ++ c : BitVec 8).extractLsb' 6 2 = m ∧ (m ++ r ++ c : BitVec 8).extractLsb' 3 3 = r
      ∧ (m ++ r ++ c : BitVec 8).extractLsb' 0 3 = c := by
  revert m r c; decide

theorem modrm_of_fields (b : Byte) :
    (b.extractLsb' 6 2 ++ b.extractLsb' 3 3 ++ b.extractLsb' 0 3 : BitVec 8) = b := by
  revert b; decide

/-! ### The decoder as a whole -/

/-- The form selected has the parts it was selected from (30_encoding R104). -/
theorem selectForm_parts (c : Ctx) (ps : List LegacyPrefix) (rex : Option Rex) (wide : Bool) (reg : BitVec 3) (rm : Rm) :
    (selectForm c ps rex wide reg rm).prefixes = ps ∧ (selectForm c ps rex wide reg rm).rex = rex
      ∧ (selectForm c ps rex wide reg rm).wide = wide ∧ (selectForm c ps rex wide reg rm).reg = reg
      ∧ (selectForm c ps rex wide reg rm).rm = rm := by
  unfold selectForm
  rcases rex with _ | ⟨_ | _, x⟩ <;> cases wide <;> simp only <;> (try split) <;>
    simp [Instr.prefixes, Instr.rm, Instr.rex, Instr.wide, Instr.reg]

/-- Outside `Long64` no REX prefix is recorded (30_encoding R84). -/
theorem scanRex_none {m : Mode} (h : m ≠ .long64) (bs : List Byte) : scanRex m bs = (none, bs) := by
  cases bs <;> simp [scanRex, h]

/-- What decoding has done where it answers an instruction: each of its stages answered, the prefixes keep the discipline,
and the instruction is the form selected from the parts (30_encoding R80). -/
theorem decode_ok {c : Ctx} {bytes rest : List Byte} {i : Instr} (h : decode c bytes = .ok (i, rest)) :
    ∃ wide modrm bs rm,
      takeOpcode (scanRex c.mode (scanPrefixes bytes).2).1.isSome c.mode (scanRex c.mode (scanPrefixes bytes).2).2
        = .ok (wide, modrm :: bs)
      ∧ takeRm (asz c ((scanPrefixes bytes).1.contains .addrSize)) (modrm.extractLsb' 6 2) (modrm.extractLsb' 0 3) bs
        = some (rm, rest)
      ∧ prefixProblem (scanPrefixes bytes).1 = none
      ∧ i = selectForm c (scanPrefixes bytes).1 (scanRex c.mode (scanPrefixes bytes).2).1 wide
          (modrm.extractLsb' 3 3) rm := by
  simp only [decode] at h
  split at h
  · cases h
  · rename_i wide afterOpcode hop
    split at h
    · cases h
    · rename_i modrm bs
      split at h
      · cases h
      · rename_i rm rest' hrm
        split at h
        · cases h
        · rename_i hp
          simp only [Except.ok.injEq, Prod.mk.injEq] at h
          obtain ⟨rfl, rfl⟩ := h
          exact ⟨wide, modrm, bs, rm, hop, hrm, hp, rfl⟩

/-! ### Lengths -/

@[simp] theorem length_bytes16 (v : Word16) : (bytes16 v).length = 2 := rfl
@[simp] theorem length_bytes32 (v : DWord) : (bytes32 v).length = 4 := rfl

@[simp] theorem Disp16.length_bytes (d : Disp16) : d.bytes.length = d.size := by cases d <;> rfl
@[simp] theorem Disp32.length_bytes (d : Disp32) : d.bytes.length = d.size := by cases d <;> rfl

@[simp] theorem Rm.length_extra (m : Rm) : m.extra.length = m.extraSize := by
  cases m <;> simp [Rm.extra, Rm.extraSize, Nat.add_comm]

/-- The encoder writes as many bytes as the length rule counts (30_encoding R97). -/
theorem length_encode (i : Instr) : (encode i).length = i.length := by
  unfold encode Instr.length Instr.rexBytes
  rcases i.rex with _ | x <;> simp <;> omega

end Sys2Proof
end

