-- ==== Sys2Proof/Laws/State.lean ====
section
/-! SUPPORT. One lemma per field per update of the state. -/

namespace Sys2Proof.Machine

/-! ### setGpr -/

@[simp] theorem setGpr_pc (s : State) (i : RegNum) (g : Gpr) : (s.setGpr i g).pc = s.pc := rfl
@[simp] theorem setGpr_flags (s : State) (i : RegNum) (g : Gpr) : (s.setGpr i g).flags = s.flags := rfl
@[simp] theorem setGpr_mem (s : State) (i : RegNum) (g : Gpr) : (s.setGpr i g).mem = s.mem := rfl
@[simp] theorem setGpr_env (s : State) (i : RegNum) (g : Gpr) : (s.setGpr i g).env = s.env := rfl
@[simp] theorem setGpr_free (s : State) (i : RegNum) (g : Gpr) : (s.setGpr i g).free = s.free := rfl

@[simp] theorem gpr_setGpr_same (s : State) (i : RegNum) (g : Gpr) : (s.setGpr i g).gpr i = g := by
  simp [State.gpr, State.setGpr]

theorem gpr_setGpr_other {s : State} {i r : RegNum} {g : Gpr} (h : r ≠ i) : (s.setGpr i g).gpr r = s.gpr r := by
  have : (i : Nat) ≠ r := fun e => h (Fin.ext e.symm)
  simp [State.gpr, State.setGpr, this]

/-! ### Views read only the registers -/

theorem r64_congr {s t : State} {i : RegNum} (h : t.gpr i = s.gpr i) : t.r64 i = s.r64 i := by
  simp [State.r64, h]
theorem r32_congr {s t : State} {i : RegNum} (h : t.gpr i = s.gpr i) : t.r32 i = s.r32 i := by
  simp [State.r32, h]
theorem r16_congr {s t : State} {i : RegNum} (h : t.gpr i = s.gpr i) : t.r16 i = s.r16 i := by
  simp [State.r16, h]
theorem r8lo_congr {s t : State} {i : RegNum} (h : t.gpr i = s.gpr i) : t.r8lo i = s.r8lo i := by
  simp [State.r8lo, h]

/-! ### writeR64 -/

@[simp] theorem writeR64_pc (s : State) (d : RegNum) (v : DWord) : (s.writeR64 d v).pc = s.pc := rfl
@[simp] theorem writeR64_flags (s : State) (d : RegNum) (v : DWord) : (s.writeR64 d v).flags = s.flags := rfl
@[simp] theorem writeR64_mem (s : State) (d : RegNum) (v : DWord) : (s.writeR64 d v).mem = s.mem := rfl
@[simp] theorem writeR64_env (s : State) (d : RegNum) (v : DWord) : (s.writeR64 d v).env = s.env := rfl
@[simp] theorem writeR64_free (s : State) (d : RegNum) (v : DWord) : (s.writeR64 d v).free = s.free := rfl
@[simp] theorem gpr_writeR64_same (s : State) (d : RegNum) (v : DWord) :
    (s.writeR64 d v).gpr d = { hi := 0, lo := v } := gpr_setGpr_same ..
theorem gpr_writeR64_other {s : State} {d r : RegNum} {v : DWord} (h : r ≠ d) :
    (s.writeR64 d v).gpr r = s.gpr r := gpr_setGpr_other h

/-! ### writeR32 -/

@[simp] theorem writeR32_pc (s : State) (d : RegNum) (v : DWord) : (s.writeR32 d v).pc = s.pc := by
  unfold State.writeR32; split <;> rfl
@[simp] theorem writeR32_flags (s : State) (d : RegNum) (v : DWord) : (s.writeR32 d v).flags = s.flags := by
  unfold State.writeR32; split <;> rfl
@[simp] theorem writeR32_mem (s : State) (d : RegNum) (v : DWord) : (s.writeR32 d v).mem = s.mem := by
  unfold State.writeR32; split <;> rfl
@[simp] theorem writeR32_env (s : State) (d : RegNum) (v : DWord) : (s.writeR32 d v).env = s.env := by
  unfold State.writeR32; split <;> rfl
@[simp] theorem r32_writeR32_same (s : State) (d : RegNum) (v : DWord) : (s.writeR32 d v).r32 d = v := by
  unfold State.writeR32 State.r32; split <;> simp [State.gpr, State.setGpr]
theorem writeR32_long64 {s : State} (h : s.env.ctx.mode = .long64) (d : RegNum) (v : DWord) :
    s.writeR32 d v = s.writeR64 d v := by
  simp [State.writeR32, State.writeR64, h]
theorem gpr_writeR32_other {s : State} {d r : RegNum} {v : DWord} (h : r ≠ d) :
    (s.writeR32 d v).gpr r = s.gpr r := by
  unfold State.writeR32; split
  · exact gpr_setGpr_other h
  · exact gpr_setGpr_other (s := s) h

/-! ### writeDest -/

@[simp] theorem writeDest_pc (w : DestSize) (s : State) (d : RegNum) (v : DWord) : (writeDest w d v s).pc = s.pc := by
  cases w <;> simp [writeDest]
@[simp] theorem writeDest_flags (w : DestSize) (s : State) (d : RegNum) (v : DWord) :
    (writeDest w d v s).flags = s.flags := by cases w <;> simp [writeDest]
@[simp] theorem writeDest_mem (w : DestSize) (s : State) (d : RegNum) (v : DWord) :
    (writeDest w d v s).mem = s.mem := by cases w <;> simp [writeDest]
@[simp] theorem writeDest_env (w : DestSize) (s : State) (d : RegNum) (v : DWord) :
    (writeDest w d v s).env = s.env := by cases w <;> simp [writeDest]
@[simp] theorem r32_writeDest_same (w : DestSize) (s : State) (d : RegNum) (v : DWord) :
    (writeDest w d v s).r32 d = v := by
  cases w <;> simp [writeDest, State.r32, State.writeR64]
  exact r32_writeR32_same s d v
theorem gpr_writeDest_other {w : DestSize} {s : State} {d r : RegNum} {v : DWord} (h : r ≠ d) :
    (writeDest w d v s).gpr r = s.gpr r := by
  cases w
  · exact gpr_writeR32_other h
  · exact gpr_writeR64_other h
theorem gpr_writeDest_long64 {w : DestSize} {s : State} (h : s.env.ctx.mode = .long64) (d : RegNum) (v : DWord) :
    (writeDest w d v s).gpr d = { hi := 0, lo := v } := by
  cases w <;> simp [writeDest, writeR32_long64 h]

/-! ### advance -/

@[simp] theorem advance_regs (s : State) (n : Nat) : (s.advance n).regs = s.regs := by
  unfold State.advance; split <;> rfl
@[simp] theorem advance_gpr (s : State) (n : Nat) (r : RegNum) : (s.advance n).gpr r = s.gpr r := by
  simp [State.gpr]
@[simp] theorem advance_r32 (s : State) (n : Nat) (r : RegNum) : (s.advance n).r32 r = s.r32 r := by
  simp [State.r32]
@[simp] theorem advance_flags (s : State) (n : Nat) : (s.advance n).flags = s.flags := by
  unfold State.advance; split <;> rfl
@[simp] theorem advance_mem (s : State) (n : Nat) : (s.advance n).mem = s.mem := by
  unfold State.advance; split <;> rfl
@[simp] theorem advance_env (s : State) (n : Nat) : (s.advance n).env = s.env := by
  unfold State.advance; split <;> rfl

theorem pcWidth_le (c : Ctx) : c.pcWidth ≤ c.pcRegWidth := by
  unfold Ctx.pcWidth Ctx.pcRegWidth
  split
  · exact le_rfl
  · split <;> decide

theorem pcRegWidth_le (c : Ctx) : c.pcRegWidth ≤ 64 := by
  unfold Ctx.pcRegWidth; split <;> decide

theorem pow_pcRegWidth_le (c : Ctx) : 2 ^ c.pcRegWidth ≤ 2 ^ 64 := Nat.pow_le_pow_right (by decide) (pcRegWidth_le c)

/-- The advance where the pc register holds the sum: the pc is the sum, and nothing else changes. -/
theorem advance_of_lt {s : State} {n : Nat} (h : s.pc.toNat + n < 2 ^ s.env.ctx.pcRegWidth) :
    s.advance n = { s with pc := s.nextPc n } := if_pos h

/-- The advance where it does not: the pc is the free value, and the counter passes it. -/
theorem advance_of_not_lt {s : State} {n : Nat} (h : ¬ s.pc.toNat + n < 2 ^ s.env.ctx.pcRegWidth) :
    s.advance n = { s with pc := s.freePc, free := s.free + 1 } := if_neg h

/-- The next instruction's address as a number, where the pc register holds it. -/
theorem nextPc_toNat {s : State} {n : Nat} (h : s.pc.toNat + n < 2 ^ s.env.ctx.pcRegWidth) :
    (s.nextPc n).toNat = s.pc.toNat + n := by
  have := pow_pcRegWidth_le s.env.ctx
  simp only [State.nextPc, BitVec.toNat_add, BitVec.toNat_ofNat]
  omega

theorem advance_pc_toNat {s : State} {n : Nat} (h : s.pc.toNat + n < 2 ^ s.env.ctx.pcRegWidth) :
    (s.advance n).pc.toNat = s.pc.toNat + n := by
  rw [advance_of_lt h]; exact nextPc_toNat h

/-- The free pc is a value of the pc register. -/
theorem freePc_toNat (s : State) : s.freePc.toNat = (Config.freePc s.free).toNat % 2 ^ s.env.ctx.pcRegWidth := by
  have h64 := pow_pcRegWidth_le s.env.ctx
  have hm := Nat.mod_lt (Config.freePc s.free).toNat (Nat.two_pow_pos s.env.ctx.pcRegWidth)
  rw [State.freePc, BitVec.toNat_ofNat]
  exact Nat.mod_eq_of_lt (by omega)

/-- The advance leaves a value of the pc register, that does not exceed the top where the instruction did not. -/
theorem advance_pc_bounds (s : State) {n : Nat} (h : s.passesTop n = false) :
    (s.advance n).pc.toNat < 2 ^ s.env.ctx.pcRegWidth ∧ (s.advance n).pc.toNat ≤ 2 ^ s.env.ctx.pcWidth := by
  simp only [State.passesTop, decide_eq_false_iff_not, Nat.not_lt] at h
  by_cases hr : s.pc.toNat + n < 2 ^ s.env.ctx.pcRegWidth
  · rw [advance_pc_toNat hr]; exact ⟨hr, h⟩
  · have hf : s.freePc.toNat < 2 ^ s.env.ctx.pcRegWidth :=
      freePc_toNat s ▸ Nat.mod_lt _ (Nat.two_pow_pos _)
    rw [advance_of_not_lt hr]
    exact ⟨hf, by show s.freePc.toNat ≤ _; omega⟩

/-! ### afterCrc32 -/

section
variable (sz : SrcSize) (dw : DestSize) (i : Instr) (data : BitVec sz.bits) (s : State)

@[simp] theorem afterCrc32_flags : (afterCrc32 sz dw i data s).flags = s.flags := by simp [afterCrc32, crc32Flags]
@[simp] theorem afterCrc32_mem : (afterCrc32 sz dw i data s).mem = s.mem := by simp [afterCrc32]
@[simp] theorem afterCrc32_env : (afterCrc32 sz dw i data s).env = s.env := by simp [afterCrc32]

theorem afterCrc32_gpr (r : RegNum) :
    (afterCrc32 sz dw i data s).gpr r
      = (writeDest dw (destReg i) (crc32cStep sz.bits (s.r32 (destReg i)) data) s).gpr r :=
  advance_gpr ..

@[simp] theorem afterCrc32_r32_dest :
    (afterCrc32 sz dw i data s).r32 (destReg i) = crc32cStep sz.bits (s.r32 (destReg i)) data :=
  (r32_congr (afterCrc32_gpr sz dw i data s _)).trans (r32_writeDest_same ..)
end

theorem afterCrc32_gpr_other {sz : SrcSize} {dw : DestSize} {i : Instr} {data : BitVec sz.bits} {s : State} {r : RegNum}
    (h : r ≠ destReg i) : (afterCrc32 sz dw i data s).gpr r = s.gpr r :=
  (afterCrc32_gpr sz dw i data s r).trans (gpr_writeDest_other h)

theorem afterCrc32_gpr_long64 {sz : SrcSize} {dw : DestSize} {i : Instr} {data : BitVec sz.bits} {s : State}
    (h : s.env.ctx.mode = .long64) :
    (afterCrc32 sz dw i data s).gpr (destReg i)
      = { hi := 0, lo := crc32cStep sz.bits (s.r32 (destReg i)) data } :=
  (afterCrc32_gpr sz dw i data s _).trans (gpr_writeDest_long64 h ..)

/-- The pc of a completed instruction, where the pc register holds it. -/
theorem afterCrc32_pc_toNat {sz : SrcSize} {dw : DestSize} {i : Instr} {data : BitVec sz.bits} {s : State}
    (h : s.pc.toNat + i.length < 2 ^ s.env.ctx.pcRegWidth) :
    (afterCrc32 sz dw i data s).pc.toNat = s.pc.toNat + i.length := by
  unfold afterCrc32
  rw [advance_pc_toNat] <;> simp [h]

/-- A completed instruction leaves a value of the pc register that does not exceed the top. -/
theorem afterCrc32_pc_bounds {sz : SrcSize} {dw : DestSize} {i : Instr} {data : BitVec sz.bits} {s : State}
    (h : s.passesTop i.length = false) :
    (afterCrc32 sz dw i data s).pc.toNat < 2 ^ s.env.ctx.pcRegWidth
      ∧ (afterCrc32 sz dw i data s).pc.toNat ≤ 2 ^ s.env.ctx.pcWidth := by
  unfold afterCrc32
  simpa using advance_pc_bounds { writeDest dw (destReg i) (crc32cStep sz.bits (s.r32 (destReg i)) data) s with
    flags := crc32Flags s.flags } (n := i.length) (by simpa [State.passesTop] using h)

end Sys2Proof.Machine
end

