-- ==== Sys2Proof/Laws/Exec.lean ====
section
/-! SUPPORT. What the shared operations can do, said once: choosing a fault, the checked read, the execution template,
and a step. -/

namespace Sys2Proof.Machine

/-- Every instruction's meaning is the template at its row's sizes (30_encoding R104, 40_crc32 R130). -/
theorem exec_eq (i : Instr) (s : State) : exec i s = execCrc32 (srcSizeOf i) (destSizeOf i) i s := by
  cases i <;> rfl

/-! ### Choosing a fault -/

theorem chooseFault_none {free : Nat} {fs : List Fault} : chooseFault free fs = none ↔ fs = [] := by
  match fs with
  | []          => simp [chooseFault]
  | [f]         => simp [chooseFault]
  | f :: g :: t =>
    simp only [chooseFault, List.getElem?_eq_none_iff, List.length_cons, reduceCtorEq, iff_false, Nat.not_le]
    exact Nat.mod_lt _ (by omega)

/-- The chosen exception is one of those that apply. -/
theorem chooseFault_mem {free : Nat} {fs : List Fault} {f : Fault} (h : chooseFault free fs = some f) : f ∈ fs := by
  match fs with
  | []          => simp [chooseFault] at h
  | [g]         => simpa [chooseFault, eq_comm] using h
  | g :: k :: t => exact List.mem_of_getElem? h

/-- An exception is in the list exactly when its check fails. -/
theorem mem_operandFaults {e : Env} {seg : SegReg} {ea : QWord} {n : Nat} {f : Fault} :
    f ∈ operandFaults e seg ea n ↔
      (f = segmentFault seg ∧ (failsSegCheck e seg ea n || failsCanonical e (e.linear seg ea) n) = true)
      ∨ (f = .ac0 ∧ failsAlignment e ea (e.linear seg ea) n = true)
      ∨ ∃ code ∈ pageFaultCodes (translations e (e.linear seg ea) n), f = .pf code := by
  simp only [operandFaults, List.mem_dedup, List.mem_append, List.mem_map, or_assoc]
  refine or_congr ?_ (or_congr ?_ (exists_congr fun c => and_congr_right fun _ => eq_comm))
  · split <;> simp_all
  · split <;> simp_all

theorem mem_pageFaultCodes {ts : List (Except Nat Nat)} {code : Nat} : code ∈ pageFaultCodes ts ↔ .error code ∈ ts := by
  induction ts with
  | nil => simp [pageFaultCodes]
  | cons t ts ih => cases t <;> simp_all [pageFaultCodes]

theorem pageFaultCodes_nil {ts : List (Except Nat Nat)} (h : pageFaultCodes ts = []) :
    ts = (physicalAddrs ts).map .ok := by
  induction ts with
  | nil => rfl
  | cons t ts ih =>
    cases t with
    | error c => simp [pageFaultCodes] at h
    | ok pa => exact congrArg (Except.ok pa :: ·) (ih h)

/-! ### The checked read -/

/-- The checked read answers a value only when no exception applies, and the value is that of its bytes. -/
theorem readOperand_ok {sz : SrcSize} {seg : SegReg} {ea : QWord} {s : State} {v : BitVec sz.bits} :
    readOperand sz seg ea s = .ok v ↔
      operandFaults s.env seg ea sz.bytes = []
      ∧ (∀ a ∈ physicalAddrs (translations s.env (s.env.linear seg ea) sz.bytes),
          inRanges s.env.sideEffects a = false)
      ∧ v = BitVec.ofNat sz.bits (leValue
          ((physicalAddrs (translations s.env (s.env.linear seg ea) sz.bytes)).map (readByte s.mem))) := by
  unfold readOperand
  rcases hc : chooseFault s.free (operandFaults s.env seg ea sz.bytes) with _ | f
  · simp only [chooseFault_none.1 hc, true_and]
    split
    · rename_i h
      simp only [reduceCtorEq, false_iff, not_and]
      intro h'
      obtain ⟨a, ha, hb⟩ := List.any_eq_true.1 h
      simp [h' a ha] at hb
    · rename_i h
      simp only [Except.ok.injEq]
      rw [eq_comm, iff_and_self]
      exact fun _ a ha => by simpa using fun hb => h (List.any_eq_true.2 ⟨a, ha, hb⟩)
  · have : operandFaults s.env seg ea sz.bytes ≠ [] := fun h => by simp [h, chooseFault] at hc
    simp [this]

/-- The checked read raises only an exception that applies. -/
theorem readOperand_fault {sz : SrcSize} {seg : SegReg} {ea : QWord} {s : State} {f : Fault} :
    readOperand sz seg ea s = .error (.fault f) ↔
      chooseFault s.free (operandFaults s.env seg ea sz.bytes) = some f := by
  unfold readOperand
  rcases chooseFault s.free (operandFaults s.env seg ea sz.bytes) with _ | g
  · simp only [reduceCtorEq, iff_false]
    split <;> simp
  · simp

/-- A register source is never refused and never faults. -/
theorem readSource_reg {sz : SrcSize} {i : Instr} {s : State} {code : BitVec 3} (h : i.rm = .reg code) :
    readSource sz i s = .ok (regSource sz i code s) := by
  simp [readSource, h]

theorem readSource_mem {sz : SrcSize} {i : Instr} {s : State} (h : ∀ code, i.rm ≠ .reg code) :
    readSource sz i s = readOperand sz (operandSegment i s.env.ctx.mode) (effectiveAddress i s) s := by
  unfold readSource
  split
  · exact absurd ‹_› (h _)
  · rfl

/-! ### The execution template -/

/-- The template completes exactly when the instruction is an encoding here, does not exceed the top of the pc, has no
reason for `#UD`, and its source can be read; what it leaves is `afterCrc32`. -/
theorem execCrc32_next {sz : SrcSize} {dw : DestSize} {i : Instr} {s t : State} :
    execCrc32 sz dw i s = .next t ↔
      i.wellFormed s.env.ctx = true ∧ s.passesTop i.length = false ∧ i.hasLock = false ∧ s.env.sse42 = true
      ∧ ∃ data, readSource sz i s = .ok data ∧ t = afterCrc32 sz dw i data s := by
  unfold execCrc32
  cases hw : i.wellFormed s.env.ctx <;> simp
  cases hl : i.hasLock <;> cases hs : s.env.sse42 <;> simp [raise, Stop.outcome]
  cases ht : s.passesTop i.length <;> rcases hr : readSource sz i s with (f | r) | data <;> simp [eq_comm]

/-- The template raises an exception exactly when it is `#UD`, or the source's read raises it. -/
theorem execCrc32_fault {sz : SrcSize} {dw : DestSize} {i : Instr} {s : State} {f : Fault} :
    execCrc32 sz dw i s = .fault f ↔
      i.wellFormed s.env.ctx = true
      ∧ (((i.hasLock = true ∨ s.env.sse42 = false) ∧ f = .ud)
        ∨ (i.hasLock = false ∧ s.env.sse42 = true ∧ readSource sz i s = .error (.fault f))) := by
  unfold execCrc32
  cases hw : i.wellFormed s.env.ctx <;> simp
  cases hl : i.hasLock <;> cases hs : s.env.sse42 <;> simp [raise, Stop.outcome]
  all_goals first
    | exact eq_comm
    | (rcases hr : readSource sz i s with (g | r) | data <;> simp
       split <;> simp)

/-- What a step that goes on has done: it fetched an instruction and ran its meaning to completion. -/
theorem step_next {s t : State} (h : step s = .next t) :
    ∃ i data, fetchInstr s = .ok i ∧ s.passesTop i.length = false
      ∧ t = afterCrc32 (srcSizeOf i) (destSizeOf i) i data s := by
  unfold step at h
  rcases hf : fetchInstr s with r | i
  · simp [hf] at h
  · simp only [hf, exec_eq, execCrc32_next] at h
    obtain ⟨-, ht, -, -, data, -, rfl⟩ := h
    exact ⟨i, data, rfl, ht, rfl⟩

end Sys2Proof.Machine
end

