-- ==== Sys2Proof/Laws/Memory.lean ====
section
/-! SUPPORT. The laws of memory: reading after a write, and that every memory operation keeps the canonical form. -/

namespace Sys2Proof.Machine

theorem wfFrom_mono {lo lo' : Nat} {m : Memory} (h : lo' ≤ lo) (hm : Memory.wfFrom lo m = true) :
    Memory.wfFrom lo' m = true := by
  cases m with
  | nil => rfl
  | cons c m =>
    simp only [Memory.wfFrom, Bool.and_eq_true, decide_eq_true_eq] at hm ⊢
    exact ⟨⟨h.trans hm.1.1, hm.1.2⟩, hm.2⟩

/-- Below its lowest listed address, a memory reads as what an unlisted address reads as. -/
theorem readByte_below {lo a : Nat} {m : Memory} (hm : Memory.wfFrom lo m = true) (h : a < lo) :
    readByte m a = unlistedByte := by
  induction m generalizing lo with
  | nil => rfl
  | cons c m ih =>
    simp only [Memory.wfFrom, Bool.and_eq_true, decide_eq_true_eq] at hm
    rw [readByte, if_neg (by omega)]
    exact ih hm.2 (by omega)

theorem readByte_writeByte_same {lo a : Nat} {m : Memory} {b : Byte} (hm : Memory.wfFrom lo m = true) :
    readByte (writeByte m a b) a = b := by
  induction m generalizing lo with
  | nil => unfold writeByte; split <;> simp_all [readByte]
  | cons c m ih =>
    obtain ⟨k, v⟩ := c
    simp only [Memory.wfFrom, Bool.and_eq_true, decide_eq_true_eq] at hm
    rcases lt_trichotomy a k with h | rfl | h
    · have hr : readByte ((k, v) :: m) a = unlistedByte :=
        readByte_below (lo := k) (by simp [Memory.wfFrom, hm.1.2, hm.2]) h
      simp only [writeByte, if_pos h]
      split
      · simp_all
      · simp [readByte]
    · simp only [writeByte, lt_irrefl, if_false, if_true]
      split
      · simp_all [readByte_below hm.2 (Nat.lt_succ_self a)]
      · simp [readByte]
    · simp only [writeByte, if_neg (Nat.lt_asymm h), if_neg (Nat.ne_of_gt h), readByte]
      exact ih hm.2

theorem readByte_writeByte_other {a c : Nat} (m : Memory) (b : Byte) (h : c ≠ a) :
    readByte (writeByte m a b) c = readByte m c := by
  induction m with
  | nil => unfold writeByte; split <;> simp [readByte, h]
  | cons e m ih =>
    obtain ⟨k, v⟩ := e
    unfold writeByte
    split
    · split <;> simp [readByte, h]
    · split
      · subst_vars; split <;> simp [readByte, h]
      · simp [readByte, ih]

theorem wfFrom_writeByte {lo a : Nat} {m : Memory} {b : Byte} (hm : Memory.wfFrom lo m = true) (h : lo ≤ a) :
    Memory.wfFrom lo (writeByte m a b) = true := by
  induction m generalizing lo with
  | nil => unfold writeByte; split <;> simp_all [Memory.wfFrom]
  | cons e m ih =>
    obtain ⟨k, v⟩ := e
    have hm' := hm
    simp only [Memory.wfFrom, Bool.and_eq_true, decide_eq_true_eq] at hm
    unfold writeByte
    split
    · split
      · exact hm'
      · simp_all [Memory.wfFrom]
    · split
      · subst_vars; split
        · exact wfFrom_mono (by omega) hm.2
        · simp_all [Memory.wfFrom]
      · simp only [Memory.wfFrom, Bool.and_eq_true, decide_eq_true_eq]
        exact ⟨hm.1, ih hm.2 (by omega)⟩

/-- A write keeps the canonical form. -/
theorem wf_writeByte {m : Memory} {a : Nat} {b : Byte} (h : m.wf = true) : Memory.wf (writeByte m a b) = true :=
  wfFrom_writeByte h (Nat.zero_le a)

/-- Reading after a write of the same address gives the byte written. -/
theorem readByte_writeByte {m : Memory} {a : Nat} {b : Byte} (h : m.wf = true) : readByte (writeByte m a b) a = b :=
  readByte_writeByte_same h

theorem wf_placeFrom {s : State} {k : Nat} {bs : List Byte} {m : Memory} (h : m.wf = true) :
    Memory.wf (placeFrom s k bs m) = true := by
  induction bs generalizing k m with
  | nil => exact h
  | cons b bs ih =>
    unfold placeFrom
    split
    · exact ih h
    · exact ih (wf_writeByte h)

/-- Placing code keeps the canonical form. -/
theorem wf_withCode {s : State} (h : s.mem.wf = true) (bs : List Byte) : (s.withCode bs).mem.wf = true :=
  wf_placeFrom h

@[simp] theorem withCode_regs (s : State) (bs : List Byte) : (s.withCode bs).regs = s.regs := rfl
@[simp] theorem withCode_pc (s : State) (bs : List Byte) : (s.withCode bs).pc = s.pc := rfl
@[simp] theorem withCode_flags (s : State) (bs : List Byte) : (s.withCode bs).flags = s.flags := rfl
@[simp] theorem withCode_env (s : State) (bs : List Byte) : (s.withCode bs).env = s.env := rfl
@[simp] theorem withCode_free (s : State) (bs : List Byte) : (s.withCode bs).free = s.free := rfl

theorem reset_mem_wf : State.reset.mem.wf = true := rfl

end Sys2Proof.Machine
end

