-- ==== Sys2Proof/Laws/Operand.lean ====
section
/-! SUPPORT. The checks of the machine decide the conditions that Safety states: bad segments, unaligned operands, page
faults, readable operands; and register numbers. -/

namespace Sys2Proof.Machine

open Sys2Proof.Safety

/-- The decoder's register number is the number the rules count. -/
theorem regNum_eq (hi : Bool) (lo : BitVec 3) : regNum hi lo = numberOf hi lo := by
  revert hi lo; decide

/-- The decoder's operand size is R86's, where REX.W is set only in `Long64`. -/
theorem operandBits_eq {c : Ctx} {has66 rexW : Bool} (h : c.mode ≠ .long64 → rexW = false) :
    operandBits c.mode c.defaultOperandSize has66 rexW
      = match osz c has66 rexW with | .s16 => 16 | .s32 => 32 | .s64 => 64 := by
  obtain ⟨m, d, e⟩ := c
  cases m <;> cases d <;> cases has66 <;> cases rexW <;> simp_all [operandBits, osz, Ctx.operandDefault]

theorem bytes_pos (sz : SrcSize) : 0 < sz.bytes := by cases sz <;> decide

theorem bars_iff {g : Segment} {ea n : Nat} : g.bars ea n = true ↔ Barred g ea n := by
  simp [Segment.bars, Bar.holds, Barred, and_assoc]

theorem any_offsets {ea : QWord} {n : Nat} {p : Nat → Bool} :
    (offsets ea n).any p = true ↔ ∃ k, k < n ∧ p (ea.toNat + k) = true := by
  simp [offsets]

/-- The segment and canonical checks fail exactly when `SegmentBad` holds. -/
theorem fails_iff_segmentBad {e : Env} {seg : SegReg} {ea : QWord} {n : Nat} (hn : 0 < n) :
    (failsSegCheck e seg ea n || failsCanonical e (e.linear seg ea) n) = true ↔ SegmentBad e seg ea n := by
  have top : (∃ k, k < n ∧ 0xFFFF < ea.toNat + k) ↔ 0xFFFF < ea.toNat + n - 1 :=
    ⟨fun ⟨k, hk, h⟩ => by omega, fun h => ⟨n - 1, by omega, by omega⟩⟩
  unfold failsSegCheck failsCanonical SegmentBad
  rcases hm : e.ctx.mode <;>
    simp only [any_offsets, bars_iff, Bool.or_eq_true, Bool.and_eq_true, Bool.not_eq_true', Bool.and_eq_false_iff,
      decide_eq_true_eq, decide_eq_false_iff_not, reduceCtorEq, Bool.false_eq_true, false_and, or_false, false_or,
      decide_true, decide_false, true_and, Nat.not_lt, top]
  rw [or_comm]

/-- The alignment check fails exactly when `Unaligned` holds. -/
theorem failsAlignment_iff {e : Env} {seg : SegReg} {ea : QWord} {n : Nat} :
    failsAlignment e ea (e.linear seg ea) n = true ↔ Unaligned e seg ea n := by
  unfold failsAlignment Env.checksAlignment Unaligned
  rcases hm : e.ctx.mode <;> simp [and_assoc] <;> tauto

/-- A page fault's code is among those collected exactly when some byte's translation answers it. -/
theorem mem_pageFaultCodes_translations {e : Env} {la : QWord} {n code : Nat} :
    code ∈ pageFaultCodes (translations e la n) ↔ ∃ k, k < n ∧ e.translate (e.linearAfter la k) = .error code := by
  simp [mem_pageFaultCodes, translations]

/-- The machine collects exactly the exceptions that apply. -/
theorem mem_operandFaults_iff {e : Env} {seg : SegReg} {ea : QWord} {n : Nat} {f : Fault} (hn : 0 < n) :
    f ∈ operandFaults e seg ea n ↔ Applies e seg ea n f := by
  rw [mem_operandFaults, fails_iff_segmentBad hn, failsAlignment_iff]
  simp only [mem_pageFaultCodes_translations, segmentFault]
  cases f <;> by_cases hs : seg = .ss <;> simp [Applies, hs]

/-- Where a source can be read at `pas`, no exception is collected and the translations are those addresses. -/
theorem readableAt_facts {e : Env} {seg : SegReg} {ea : QWord} {n : Nat} {pas : List Nat} (hn : 0 < n)
    (h : ReadableAt e seg ea n pas) :
    operandFaults e seg ea n = [] ∧ physicalAddrs (translations e (e.linear seg ea) n) = pas := by
  obtain ⟨hb, hu, hl, ht, -⟩ := h
  have htr : translations e (e.linear seg ea) n = pas.map .ok := by
    refine List.ext_getElem (by simp [translations, hl]) fun k h1 h2 => ?_
    have hk : k < pas.length := by simpa using h2
    simpa [translations] using ht k pas[k] (List.getElem?_eq_getElem hk)
  refine ⟨List.eq_nil_iff_forall_not_mem.2 fun f hf => ?_, ?_⟩
  · rw [mem_operandFaults_iff hn] at hf
    cases f with
    | ud => exact hf
    | ss0 => exact hb hf.2
    | gp0 => exact hb hf.2
    | ac0 => exact hu hf
    | pf code =>
      obtain ⟨k, hk, hc⟩ := hf
      rw [ht k pas[k] (List.getElem?_eq_getElem (by omega))] at hc
      cases hc
  · rw [htr]
    clear * -
    induction pas with
    | nil => rfl
    | cons a as ih => exact congrArg (a :: ·) ih

/-- A source that can be read is read: the value is that of its bytes. -/
theorem readOperand_readableAt {sz : SrcSize} {seg : SegReg} {ea : QWord} {s : State} {pas : List Nat}
    (h : ReadableAt s.env seg ea sz.bytes pas) :
    readOperand sz seg ea s = .ok (BitVec.ofNat sz.bits (leValue (pas.map (readByte s.mem)))) := by
  obtain ⟨hf, hp⟩ := readableAt_facts (bytes_pos sz) h
  rw [readOperand_ok, hp]
  exact ⟨hf, h.2.2.2.2, rfl⟩

theorem hasLock_eq_true {i : Instr} : i.hasLock = true ↔ LegacyPrefix.lock ∈ i.prefixes := by
  simp [Instr.hasLock]

/-- What an enabled instruction answers: its source's stop, the refusal at the advance, or the completed state. -/
theorem exec_enabled {i : Instr} {s : State} (h : Enabled i s) :
    exec i s = match readSource (srcSizeOf i) i s with
      | .error stop => stop.outcome
      | .ok data    =>
        if s.passesTop i.length then .refused .pastTop
        else .next (afterCrc32 (srcSizeOf i) (destSizeOf i) i data s) := by
  obtain ⟨hw, hs, hl⟩ := h
  have hl' : i.hasLock = false := by simpa [Instr.hasLock] using hl
  simp only [exec_eq, execCrc32, hw, hs, hl']
  rcases readSource (srcSizeOf i) i s with _ | _ <;> rfl

/-- An executable instruction whose source can be read completes. -/
theorem exec_executable {i : Instr} {s : State} {data : BitVec (srcSizeOf i).bits} (h : Executable i s)
    (hr : readSource (srcSizeOf i) i s = .ok data) :
    exec i s = .next (afterCrc32 (srcSizeOf i) (destSizeOf i) i data s) := by
  rw [exec_enabled h.1, hr]
  exact if_neg (by simpa [State.passesTop] using h.2)

end Sys2Proof.Machine
end

