-- ==== Sys2Proof/Laws/PerInstr.lean ====
section
/-! SUPPORT. What is said of every instruction as syntax, one lemma per constructor. -/

namespace Sys2Proof.Laws

/-- The encoding of an instruction is as long as its parts (30_encoding R97), and its last part is operand 2's. -/
def EncodedLength.Statement (i : Instr) : Prop :=
  (encode i).length = i.length ∧ ∃ front, encode i = front ++ i.rm.extra

theorem EncodedLength.statement_of (i : Instr) : EncodedLength.Statement i :=
  ⟨length_encode i, i.prefixes.map LegacyPrefix.byte ++ i.rexBytes ++ [0x0F, 0x38, if i.wide then 0xF1 else 0xF0]
    ++ [(i.rm.mod ++ i.reg ++ i.rm.code : BitVec 8)], by simp [encode]⟩

theorem EncodedLength.crc32R32Rm8 (pfx : List LegacyPrefix) (reg : BitVec 3) (rm : Rm) :
    EncodedLength.Statement (.crc32R32Rm8 pfx reg rm) := EncodedLength.statement_of _

theorem EncodedLength.crc32R32Rm8Rex (pfx : List LegacyPrefix) (rex : RexBits) (reg : BitVec 3) (rm : Rm) :
    EncodedLength.Statement (.crc32R32Rm8Rex pfx rex reg rm) := EncodedLength.statement_of _

theorem EncodedLength.crc32R32Rm16 (pfx : List LegacyPrefix) (rex : Option RexBits) (reg : BitVec 3) (rm : Rm) :
    EncodedLength.Statement (.crc32R32Rm16 pfx rex reg rm) := EncodedLength.statement_of _

theorem EncodedLength.crc32R32Rm32 (pfx : List LegacyPrefix) (rex : Option RexBits) (reg : BitVec 3) (rm : Rm) :
    EncodedLength.Statement (.crc32R32Rm32 pfx rex reg rm) := EncodedLength.statement_of _

theorem EncodedLength.crc32R64Rm8 (pfx : List LegacyPrefix) (rex : RexBits) (reg : BitVec 3) (rm : Rm) :
    EncodedLength.Statement (.crc32R64Rm8 pfx rex reg rm) := EncodedLength.statement_of _

theorem EncodedLength.crc32R64Rm64 (pfx : List LegacyPrefix) (rex : RexBits) (reg : BitVec 3) (rm : Rm) :
    EncodedLength.Statement (.crc32R64Rm64 pfx rex reg rm) := EncodedLength.statement_of _

end Sys2Proof.Laws
end

