-- ==== Sys2Proof/Tests/Slice0.lean ====
section
/-! SUPPORT. Tests of the model against the vectors of spec/95_test_vectors.md, ill-formed instructions, and for every
statement with hypotheses a witness that meets them. Expected values are the spec's. -/

namespace Sys2Proof.Tests

open Sys2Proof.Machine Sys2Proof.Safety

/-! ### Small states -/

def flat : Segment := { base := 0, inside := [{ first := 0, last := 0xFFFFFFFF }], barred := [] }

/-- A state of 95 section 4: `SSE4_2 = 1`, paging the identity, flat segments, 32-bit defaults where they are read. -/
def at_ (m : Mode) (pc : QWord) : State :=
  { State.reset with
    pc := pc
    env := { Env.reset with
      ctx := { mode := m, defaultOperandSize := .bits32, defaultAddressSize := .bits32 }
      cs := flat, ss := flat, ds := flat, es := flat, fs := flat, gs := flat } }

/-- The state with one register set. -/
def reg (s : State) (i : RegNum) (v : QWord) : State :=
  s.setGpr i { hi := v.extractLsb' 32 32, lo := v.extractLsb' 0 32 }

/-- The state with bytes placed from a physical address on. -/
def bytesAt (s : State) (a : Nat) (bs : List Byte) : State :=
  { s with mem := (bs.zipIdx).foldl (fun m p => writeByte m (a + p.2) p.1) s.mem }

/-- The state with alignment checking on, at a privilege level. -/
def checked (c : Fin 4) (s : State) : State := { s with env := { s.env with alignCheck := true, cpl := c } }

/-- What a function reads of the next state, if there is one. -/
def onNext {α : Type} (f : State → α) : Host.Outcome State Fault Refusal → Option α
  | .next t => some (f t)
  | _       => none

def faultOf : Host.Outcome State Fault Refusal → Option Fault
  | .fault f => some f
  | _        => none

def refusalOf : Host.Outcome State Fault Refusal → Option Refusal
  | .refused r => some r
  | _          => none

/-- Step at a state with these bytes at the pc. -/
def stepOn (s : State) (bs : List Byte) : Host.Outcome State Fault Refusal := step (s.withCode bs)

def long : Ctx := { mode := .long64, defaultOperandSize := .bits32, defaultAddressSize := .bits32 }
def prot32 : Ctx := { mode := .prot, defaultOperandSize := .bits32, defaultAddressSize := .bits32 }
def real16 : Ctx := { mode := .real, defaultOperandSize := .bits16, defaultAddressSize := .bits16 }

/-- The decoded instruction, if the bytes decode with nothing left. -/
def whole (c : Ctx) (bs : List Byte) : Option Instr :=
  match decode c bs with
  | .ok (i, []) => some i
  | _           => none

def whyNot (c : Ctx) (bs : List Byte) : Option DecodeError :=
  match decode c bs with
  | .error e => some e
  | _        => none

def noBits : RexBits := { r := false, x := false, b := false }

/-! ### Ill-formed terms, one for each check of WellFormed -/

theorem test_illformed_without_f2 : (Instr.crc32R32Rm8 [] 0 (.reg 0)).wellFormed long = false := by decide
theorem test_illformed_f2_twice : (Instr.crc32R32Rm8 [.repne, .repne] 0 (.reg 0)).wellFormed long = false := by decide
theorem test_illformed_lock_twice :
    (Instr.crc32R32Rm8 [.lock, .repne, .lock] 0 (.reg 0)).wellFormed long = false := by decide
theorem test_illformed_66_twice :
    (Instr.crc32R32Rm8 [.opSize, .opSize, .repne] 0 (.reg 0)).wellFormed long = false := by decide
theorem test_illformed_67_twice :
    (Instr.crc32R32Rm8 [.addrSize, .addrSize, .repne] 0 (.reg 0)).wellFormed long = false := by decide
theorem test_illformed_two_segments :
    (Instr.crc32R32Rm8 [.seg .cs, .repne, .seg .ds] 0 (.reg 0)).wellFormed long = false := by decide
theorem test_illformed_rex_row2_protected :
    (Instr.crc32R32Rm8Rex [.repne] noBits 0 (.reg 0)).wellFormed prot32 = false := by decide
theorem test_illformed_rex_row3_protected :
    (Instr.crc32R32Rm16 [.opSize, .repne] (some noBits) 0 (.reg 0)).wellFormed prot32 = false := by decide
theorem test_illformed_rex_row4_protected :
    (Instr.crc32R32Rm32 [.repne] (some noBits) 0 (.reg 0)).wellFormed prot32 = false := by decide
theorem test_illformed_rex_row5_real :
    (Instr.crc32R64Rm8 [.repne] noBits 0 (.reg 0)).wellFormed real16 = false := by decide
theorem test_illformed_rex_row6_protected :
    (Instr.crc32R64Rm64 [.repne] noBits 0 (.reg 0)).wellFormed prot32 = false := by decide
theorem test_illformed_row3_without_66 :
    (Instr.crc32R32Rm16 [.repne] none 0 (.reg 0)).wellFormed long = false := by decide
theorem test_illformed_row4_with_66 :
    (Instr.crc32R32Rm32 [.opSize, .repne] none 0 (.reg 0)).wellFormed long = false := by decide
theorem test_illformed_abs16_long : (Instr.crc32R32Rm8 [.repne] 0 (.abs16 0)).wellFormed long = false := by decide
theorem test_illformed_ind16_long :
    (Instr.crc32R32Rm8 [.repne] 0 (.ind16 0 .absent)).wellFormed long = false := by decide
theorem test_illformed_ind16_bp_without_disp :
    (Instr.crc32R32Rm8 [.repne] 0 (.ind16 6 .absent)).wellFormed real16 = false := by decide
theorem test_illformed_disp32_real : (Instr.crc32R32Rm8 [.repne] 0 (.disp32 0)).wellFormed real16 = false := by decide
theorem test_illformed_base_real :
    (Instr.crc32R32Rm8 [.repne] 0 (.base 0 .absent)).wellFormed real16 = false := by decide
theorem test_illformed_base_four :
    (Instr.crc32R32Rm8 [.repne] 0 (.base 4 .absent)).wellFormed long = false := by decide
theorem test_illformed_base_five_without_disp :
    (Instr.crc32R32Rm8 [.repne] 0 (.base 5 .absent)).wellFormed long = false := by decide
theorem test_illformed_sib_real :
    (Instr.crc32R32Rm8 [.repne] 0 (.sib 0 0 0 .absent)).wellFormed real16 = false := by decide
theorem test_illformed_sib_base_five_without_disp :
    (Instr.crc32R32Rm8 [.repne] 0 (.sib 0 0 5 .absent)).wellFormed long = false := by decide
theorem test_illformed_sib_no_base_real :
    (Instr.crc32R32Rm8 [.repne] 0 (.sibNoBase 0 0 0)).wellFormed real16 = false := by decide

/-! ### Decoding: words of 95 section 3, each written out from the encoding tables -/

-- F2 | 0F 38 F0 | 11 000 011
theorem test_decode_row1 :
    whole long [0xF2, 0x0F, 0x38, 0xF0, 0b11000011] = some (.crc32R32Rm8 [.repne] 0 (.reg 3)) := by decide
-- F2 | 0100 0001 | 0F 38 F0 | 11 000 001
theorem test_decode_row2 : whole long [0xF2, 0b01000001, 0x0F, 0x38, 0xF0, 0b11000001]
    = some (.crc32R32Rm8Rex [.repne] ⟨false, false, true⟩ 0 (.reg 1)) := by decide
-- F2 66 | 0100 0001 | 0F 38 F1 | 11 000 001
theorem test_decode_row3 : whole long [0xF2, 0x66, 0b01000001, 0x0F, 0x38, 0xF1, 0b11000001]
    = some (.crc32R32Rm16 [.repne, .opSize] (some ⟨false, false, true⟩) 0 (.reg 1)) := by decide
-- F2 | 0100 0101 | 0F 38 F1 | 11 000 001
theorem test_decode_row4 : whole long [0xF2, 0b01000101, 0x0F, 0x38, 0xF1, 0b11000001]
    = some (.crc32R32Rm32 [.repne] (some ⟨true, false, true⟩) 0 (.reg 1)) := by decide
-- F2 | 0100 1000 | 0F 38 F0 | 01 000 110 | 08
theorem test_decode_row5 : whole long [0xF2, 0b01001000, 0x0F, 0x38, 0xF0, 0b01000110, 0x08]
    = some (.crc32R64Rm8 [.repne] noBits 0 (.base 6 (.disp8 8))) := by decide
-- F2 | 0100 1010 | 0F 38 F1 | 00 000 100 | 10 100 011
theorem test_decode_row6 : whole long [0xF2, 0b01001010, 0x0F, 0x38, 0xF1, 0b00000100, 0b10100011]
    = some (.crc32R64Rm64 [.repne] ⟨false, true, false⟩ 0 (.sib 2 4 3 .absent)) := by decide
theorem test_decode_rip_relative : whole long [0xF2, 0x0F, 0x38, 0xF1, 0x05, 0x10, 0, 0, 0]
    = some (.crc32R32Rm32 [.repne] none 0 (.disp32 0x10)) := by decide
theorem test_decode_sib_no_base : whole long [0xF2, 0x48, 0x0F, 0x38, 0xF1, 0x04, 0x25, 0x00, 0x20, 0, 0]
    = some (.crc32R64Rm64 [.repne] noBits 0 (.sibNoBase 0 4 0x2000)) := by decide
theorem test_decode_disp16_real : whole real16 [0xF2, 0x0F, 0x38, 0xF0, 0x06, 0x34, 0x12]
    = some (.crc32R32Rm8 [.repne] 0 (.abs16 0x1234)) := by decide
theorem test_decode_word_default_real : whole real16 [0xF2, 0x0F, 0x38, 0xF1, 0x00]
    = some (.crc32R32Rm16 [.repne] none 0 (.ind16 0 .absent)) := by decide
-- The longest admitted encoding: 15 bytes, five prefixes, d = 8, FS.
theorem test_decode_longest :
    whole long [0x66, 0x67, 0x64, 0xF0, 0xF2, 0x4F, 0x0F, 0x38, 0xF1, 0x84, 0xCB, 0x00, 0x01, 0x00, 0x00]
    = some (.crc32R64Rm64 [.opSize, .addrSize, .seg .fs, .lock, .repne] ⟨true, true, true⟩ 0
        (.sib 3 1 3 (.disp32 0x100))) := by decide

theorem test_refuse_f2_twice : whyNot long [0xF2, 0xF2, 0x0F, 0x38, 0xF1, 0xC0] = some .repeatedPrefix := by decide
theorem test_refuse_f3 : whyNot long [0xF3, 0xF2, 0x0F, 0x38, 0xF1, 0xC0] = some .repPrefix := by decide
theorem test_refuse_two_segments :
    whyNot long [0x2E, 0x3E, 0xF2, 0x0F, 0x38, 0xF1, 0x03] = some .twoSegmentOverrides := by decide
theorem test_refuse_movbe : whyNot long [0x0F, 0x38, 0xF1, 0xC0] = some .noMandatoryPrefix := by decide
theorem test_refuse_rex_then_66 :
    whyNot long [0xF2, 0x48, 0x66, 0x0F, 0x38, 0xF1, 0xC0] = some .rexNotBeforeOpcode := by decide
theorem test_refuse_rex_protected :
    whyNot prot32 [0xF2, 0x48, 0x0F, 0x38, 0xF1, 0xC0] = some .rexOutsideLong64 := by decide
theorem test_refuse_third_byte : whyNot long [0xF2, 0x0F, 0x38, 0xF2, 0xC0] = some .notCrc32Opcode := by decide
theorem test_refuse_truncated : whyNot long [0xF2, 0x0F, 0x38, 0xF1, 0x05, 0x10] = some .truncated := by decide

/-! ### The arithmetic: vectors of 95 section 2 -/

theorem test_mod2_traced : mod2 0x8000000000 poly = 0xC0C1D64F := by decide
theorem test_mod2_poly : mod2 poly poly = 0 := by decide
theorem test_step8 : crc32cStep 8 0xFFFFFFFF 0x31 = 0x6F0A661C := by decide +kernel
theorem test_step16 : crc32cStep 16 0xDEADBEEF 0xABCD = 0x7D61DE32 := by decide +kernel
theorem test_step32 : crc32cStep 32 0xDEADBEEF 0x01234567 = 0x29E79097 := by decide +kernel
theorem test_step64 : crc32cStep 64 0xDEADBEEF 0x0123456789ABCDEF = 0x3AB01437 := by decide +kernel
theorem test_table_206 : crcTable 0xCE = 0x6FF599E3 := by decide +kernel
theorem test_check_stream : crcBytes 0xFFFFFFFF [0x31, 0x32, 0x33, 0x34, 0x35, 0x36, 0x37, 0x38, 0x39] = 0x1CF96D7C := by
  decide +kernel
theorem test_clmul : clmul 0b11 0b101 = 0b1111 := by decide

/-! ### Execution: rows of 95 section 4 -/

-- CRC32 EAX, BL: bits 63:32 of RAX become 0.
theorem test_row1_register :
    onNext (fun t => (t.r64 0, t.pc)) (stepOn (reg (reg (at_ .long64 0x1000) 0 0x12345678FFFFFFFF) 3 0x31)
      [0xF2, 0x0F, 0x38, 0xF0, 0xC3]) = some (0x6F0A661C, 0x1005) := by decide +kernel
-- CRC32 EAX, AH: no REX, code 4.
theorem test_row1_high_byte :
    onNext (fun t => t.r64 0) (stepOn (reg (reg (at_ .long64 0x1000) 0 0x3100) 4 0xAA)
      [0xF2, 0x0F, 0x38, 0xF0, 0xC4]) = some 0xC288CA83 := by decide +kernel
-- CRC32 EAX, SPL: REX, code 4.
theorem test_row2_low_byte :
    onNext (fun t => t.r64 0) (stepOn (reg (reg (at_ .long64 0x1000) 0 0x3100) 4 0xAA)
      [0xF2, 0x40, 0x0F, 0x38, 0xF0, 0xC4]) = some 0xC9A99DAF := by decide +kernel
-- CRC32 EAX, WORD PTR [RSI]: little-endian.
theorem test_row3_memory :
    onNext (fun t => t.r64 0) (stepOn (bytesAt (reg (reg (at_ .long64 0x1000) 0 0xFFFFFFFF) 6 0x2000) 0x2000 [0x31, 0x32])
      [0x66, 0xF2, 0x0F, 0x38, 0xF1, 0x06]) = some 0x8CAA3B9F := by decide +kernel
-- CRC32 EAX, DWORD PTR [RIP-9]: the instruction's own bytes.
theorem test_row4_rip_relative :
    onNext (fun t => (t.r64 0, t.pc)) (stepOn (at_ .long64 0x1000) [0xF2, 0x0F, 0x38, 0xF1, 0x05, 0xF7, 0xFF, 0xFF, 0xFF])
      = some (0xE8DE770E, 0x1009) := by decide +kernel
-- CRC32 ECX, DWORD PTR [EBX+ESI*4+10H] in protected mode (program C, step 3).
theorem test_row4_protected_sib :
    onNext (fun t => (t.r32 1, t.pc)) (stepOn (bytesAt (reg (reg (at_ .prot 0x800C) 3 0x3000) 6 2) 0x3018
        [0xEF, 0xBE, 0xAD, 0xDE]) [0xF2, 0x0F, 0x38, 0xF1, 0x4C, 0xB3, 0x10]) = some (0x09991D14, 0x8013) := by
  decide +kernel
-- CRC32 RAX, BL: the old upper half is ignored.
theorem test_row5_register :
    onNext (fun t => t.r64 0) (stepOn (reg (reg (at_ .long64 0x1000) 0 0xAAAAAAAAFFFFFFFF) 3 0x31)
      [0xF2, 0x48, 0x0F, 0x38, 0xF0, 0xC3]) = some 0x6F0A661C := by decide +kernel
-- CRC32 RAX, RAX with a non-zero upper half.
theorem test_row6_itself :
    onNext (fun t => t.r64 0) (stepOn (reg (at_ .long64 0x1000) 0 0xFFFFFFFF12345678)
      [0xF2, 0x48, 0x0F, 0x38, 0xF1, 0xC0]) = some 0xB798B438 := by decide +kernel
-- CRC32 RAX, QWORD PTR [RBP-8] through SS.
theorem test_row6_memory :
    onNext (fun t => t.r64 0) (stepOn (bytesAt (reg (reg (at_ .long64 0x1000) 0 0xFFFFFFFF) 5 0x2008) 0x2000
        [0x31, 0x32, 0x33, 0x34, 0x35, 0x36, 0x37, 0x38]) [0xF2, 0x48, 0x0F, 0x38, 0xF1, 0x45, 0xF8])
      = some 0x9F787F65 := by decide +kernel
-- Real mode: [BX+SI] wraps to 0000 (95 4.3).
theorem test_row3_real_wraps :
    onNext (fun t => t.r32 0) (stepOn (bytesAt (reg (reg (reg (at_ .real 0x1000) 0 1) 3 0xFFF0) 6 0x10) 0 [0x01, 0x00])
      [0xF2, 0x0F, 0x38, 0xF1, 0x00]) = some 0 := by decide +kernel

/-! ### Faults and refusals: rows of 95 section 4.3 -/

theorem test_fault_lock :
    faultOf (stepOn (reg (at_ .long64 0x1000) 3 0x0000800000000000) [0xF0, 0xF2, 0x0F, 0x38, 0xF1, 0x03]) = some .ud := by
  decide
theorem test_fault_canonical :
    faultOf (stepOn (reg (at_ .long64 0x1000) 6 0x00007FFFFFFFFFFC) [0xF2, 0x48, 0x0F, 0x38, 0xF1, 0x06]) = some .gp0 := by
  decide
theorem test_fault_canonical_stack :
    faultOf (stepOn (reg (at_ .long64 0x1000) 4 0x0000800000000000) [0xF2, 0x48, 0x0F, 0x38, 0xF1, 0x04, 0x24])
      = some .ss0 := by decide
theorem test_no_fault_last_canonical_byte :
    onNext (fun t => t.r64 0) (stepOn (reg (reg (at_ .long64 0x1000) 0 1) 6 0x00007FFFFFFFFFFF)
      [0xF2, 0x48, 0x0F, 0x38, 0xF0, 0x06]) = some 0xF26B8303 := by decide +kernel
theorem test_fault_alignment :
    faultOf (stepOn (checked 3 (reg (at_ .long64 0x1000) 6 0x2001)) [0x66, 0xF2, 0x0F, 0x38, 0xF1, 0x06]) = some .ac0 := by
  decide
theorem test_no_fault_level_0 :
    onNext (fun t => t.pc) (stepOn (checked 0 (reg (at_ .long64 0x1000) 6 0x2001)) [0x66, 0xF2, 0x0F, 0x38, 0xF1, 0x06])
      = some 0x1006 := by decide
theorem test_fault_v8086_alignment :
    faultOf (stepOn (checked 0 (reg (at_ .v8086 0x1000) 3 0x0101)) [0xF2, 0x0F, 0x38, 0xF1, 0x07]) = some .ac0 := by decide
theorem test_fault_real_limit :
    faultOf (stepOn (reg (reg (at_ .real 0x1000) 3 0xFFF0) 6 0x000F) [0xF2, 0x0F, 0x38, 0xF1, 0x00]) = some .gp0 := by decide
theorem test_fault_real_stack_limit :
    faultOf (stepOn (reg (at_ .real 0x1000) 5 0xFFFF) [0xF2, 0x0F, 0x38, 0xF1, 0x46, 0x00]) = some .ss0 := by decide

/-- Paging on: linear 1000H to 1FFFH mapped, everything else `#PF(4)`. -/
def paged (s : State) : State :=
  { s with env := { s.env with
      paging := .table [{ first := 0x1000, last := 0x1FFF, cpl := none, result := .mapped 0x5000 }] 4 } }

theorem test_fault_page :
    faultOf (stepOn (reg (paged (at_ .long64 0x1000)) 6 0xFFFF800000000000) [0xF2, 0x48, 0x0F, 0x38, 0xF1, 0x06])
      = some (.pf 4) := by decide
-- An operand and the instruction's own bytes, fetched through the table.
theorem test_paged_read :
    onNext (fun t => t.r64 0) (stepOn (paged (at_ .long64 0x1000)) [0xF2, 0x0F, 0x38, 0xF1, 0x05, 0xF7, 0xFF, 0xFF, 0xFF])
      = some 0xE8DE770E := by decide +kernel
-- Its fifth byte would stand past 2^64, so the step finds no such byte; exec refuses at the advance.
theorem test_refused_past_top :
    refusalOf (stepOn (at_ .long64 0xFFFFFFFFFFFFFFFC) [0xF2, 0x0F, 0x38, 0xF0, 0xC3]) = some .notFetchable
    ∧ refusalOf (exec (.crc32R32Rm8 [.repne] 0 (.reg 3)) (at_ .long64 0xFFFFFFFFFFFFFFFC)) = some .pastTop := by decide
-- 10_state R27: the end 10000H does not exceed the top, and the 32-bit pc register holds it (R20).
theorem test_ends_at_top_real :
    onNext (fun t => t.pc) (stepOn (at_ .real 0xFFFB) [0xF2, 0x0F, 0x38, 0xF0, 0xC3]) = some 0x10000 := by decide
-- 40_crc32 R130, 93 B14: an exception comes before the refusal at the advance.
theorem test_fault_before_past_top :
    faultOf (exec (.crc32R32Rm8 [.lock, .repne] 0 (.reg 3)) (at_ .long64 0xFFFFFFFFFFFFFFFF)) = some .ud
    ∧ faultOf (exec (.crc32R32Rm16 [.repne] none 0 (.abs16 0xFFFF)) (at_ .real 0xFFFF)) = some .gp0 := by decide
/-- A code segment that can be fetched from and not read (20_memory R58). -/
def executeOnly (s : State) : State :=
  { s with env := { s.env with cs := { flat with barred := [{ first := 0, last := 0xFFFFFFFF, bytes := none }] } } }
theorem test_execute_only :
    onNext (fun t => t.pc) (stepOn (executeOnly (at_ .prot 0x1000)) [0xF2, 0x0F, 0x38, 0xF0, 0xC3]) = some 0x1005
    ∧ faultOf (stepOn (executeOnly (at_ .prot 0x1000)) [0x2E, 0xF2, 0x0F, 0x38, 0xF0, 0x03]) = some .gp0 := by decide
theorem test_refused_not_fetchable : refusalOf (step (paged (at_ .long64 0x3000))) = some .notFetchable := by decide
theorem test_refused_at_reset : refusalOf (step State.reset) = some (.notCrc32 .notCrc32Opcode) := by decide
theorem test_refused_not_encodable :
    refusalOf (exec (.crc32R64Rm64 [.repne] noBits 0 (.reg 0)) (at_ .prot 0x1000)) = some .notEncodable := by decide
-- A read with side effects.
theorem test_refused_side_effects :
    refusalOf (exec (.crc32R32Rm8 [.repne] 0 (.base 0 .absent))
      { at_ .long64 0x1000 with env := { (at_ .long64 0x1000).env with sideEffects := [{ first := 0, last := 0 }] } })
      = some .sideEffectRead := by decide
theorem test_fault_numbers :
    (faultVector .ac0, faultErrorCode .ac0, faultVector .ud, faultErrorCode .ud) = (17, some 0, 6, none) := by decide

/-! ### The opcode table's words -/

theorem test_table_word_row1 :
    decodeTableWord 24 0x0F38F0 = some (.crc32R32Rm8 [.repne] 0 (.ind16 0 .absent)) := by decide
theorem test_table_word_runs :
    onNext (fun t => t.pc) (step (State.reset.withFetchWord 24 0x0F38F1)) = some 0xFFF5 := by decide

/-! ### Witnesses: every hypothesis of a statement can be met -/

theorem test_executable_row1 : Executable (.crc32R32Rm8 [.repne] 0 (.reg 3)) (at_ .long64 0x1000) := by
  unfold Executable Enabled; decide
-- Code 4, AH, outside `Long64`.
theorem test_executable_row1_high : Executable (.crc32R32Rm8 [.repne] 0 (.reg 4)) (at_ .prot 0x1000) := by
  unfold Executable Enabled; decide
theorem test_executable_row2 : Executable (.crc32R32Rm8Rex [.repne] ⟨true, false, true⟩ 7 (.reg 7)) (at_ .long64 0x1000) := by
  unfold Executable Enabled; decide
theorem test_executable_row3 : Executable (.crc32R32Rm16 [.repne] none 0 (.reg 1)) (at_ .real 0x1000) := by
  unfold Executable Enabled; decide
theorem test_executable_row4 : Executable (.crc32R32Rm32 [.repne] none 0 (.reg 2)) (at_ .compat 0x1000) := by
  unfold Executable Enabled; decide
theorem test_executable_row5 : Executable (.crc32R64Rm8 [.repne] noBits 0 (.reg 3)) (at_ .long64 0x1000) := by
  unfold Executable Enabled; decide
theorem test_executable_row6 : Executable (.crc32R64Rm64 [.repne] noBits 0 (.reg 3)) (at_ .long64 0x1000) := by
  unfold Executable Enabled; decide
/-- The last pc an instruction of five bytes completes at in real-address mode. -/
theorem test_executable_last_pc : Executable (.crc32R32Rm8 [.repne] 0 (.reg 3)) (at_ .real 0xFFFB) := by
  unfold Executable Enabled; decide

/-- A quad word at an aligned address, at level 3 with alignment checked, can be read. -/
theorem test_readable :
    ReadableAt (checked 3 (at_ .long64 0x1000)).env .ds 0x2000 8
      [0x2000, 0x2001, 0x2002, 0x2003, 0x2004, 0x2005, 0x2006, 0x2007] := by
  refine ⟨?_, ?_, rfl, ?_, by decide⟩
  · rintro (⟨k, hk, h | h⟩ | ⟨k, hk, h⟩)
    · revert h; revert hk; revert k; decide
    · revert h; revert hk; revert k; decide
    · revert h; revert hk; revert k; decide
  · rintro ⟨-, -, -, h⟩; revert h; decide
  · intro k pa h
    obtain ⟨hk, rfl⟩ := List.getElem?_eq_some_iff.1 h
    revert k; decide

/-- It is the operand of an executable row 6, so `MemoryFormsComplete` has all its hypotheses met. -/
theorem test_memory_form_hypotheses :
    Executable (.crc32R64Rm64 [.repne] noBits 0 (.base 6 .absent)) (reg (checked 3 (at_ .long64 0x1000)) 6 0x2000)
    ∧ ¬ IsRegister (.base 6 .absent)
    ∧ operandSegment (.crc32R64Rm64 [.repne] noBits 0 (.base 6 .absent)) .long64 = .ds
    ∧ effectiveAddress (.crc32R64Rm64 [.repne] noBits 0 (.base 6 .absent))
        (reg (checked 3 (at_ .long64 0x1000)) 6 0x2000) = 0x2000 := by
  refine ⟨by unfold Executable Enabled; decide, fun h => h, by decide, by decide⟩

/-- A 16-bit memory form of rows 1, 3 and 4 is executable in real-address mode, and of rows 2 and 5 in `Long64`. -/
theorem test_memory_forms_executable :
    Executable (.crc32R32Rm8 [.repne] 0 (.abs16 0x1234)) (at_ .real 0x1000)
    ∧ Executable (.crc32R32Rm16 [.repne] none 0 (.ind16 7 .absent)) (at_ .real 0x1000)
    ∧ Executable (.crc32R32Rm32 [.opSize, .repne] none 0 (.ind16 6 (.disp8 2))) (at_ .real 0x1000)
    ∧ Executable (.crc32R32Rm8Rex [.repne] noBits 0 (.disp32 0x10)) (at_ .long64 0x1000)
    ∧ Executable (.crc32R64Rm8 [.repne] noBits 0 (.sibNoBase 0 4 0x2000)) (at_ .long64 0x1000) := by
  unfold Executable Enabled; decide

/-- `#GP(0)` applies to a word at offset 0FFFFH in real-address mode, and no other exception does. -/
theorem test_applies :
    Applies (at_ .real 0x1000).env .ds 0xFFFF 2 .gp0 ∧ ∀ g, Applies (at_ .real 0x1000).env .ds 0xFFFF 2 g → g = .gp0 := by
  refine ⟨⟨by decide, Or.inl (show 0xFFFF < (0xFFFF : QWord).toNat + 2 - 1 by decide)⟩, fun g h => ?_⟩
  cases g with
  | ud => exact h.elim
  | ss0 => exact absurd h.1 (by decide)
  | gp0 => rfl
  | pf code => obtain ⟨k, -, h⟩ := h; cases h
  | ac0 => exact absurd h.1 (by decide)

/-- The same operand is that of an executable row 3: `RealModeOperandEndsAtFFFF` and `ApplicableExceptionIsRaised`; and
one byte lower nothing is bad. -/
theorem test_real_limit_hypotheses :
    Executable (.crc32R32Rm16 [.repne] none 0 (.ind16 0 .absent)) (reg (reg (at_ .real 0x1000) 3 0xFFF0) 6 0xF)
    ∧ effectiveAddress (.crc32R32Rm16 [.repne] none 0 (.ind16 0 .absent))
        (reg (reg (at_ .real 0x1000) 3 0xFFF0) 6 0xF) = 0xFFFF
    ∧ effectiveAddress (.crc32R32Rm16 [.repne] none 0 (.ind16 0 .absent))
        (reg (reg (at_ .real 0x1000) 3 0xFFF0) 6 0xE) = 0xFFFE := by
  refine ⟨by unfold Executable Enabled; decide, by decide, by decide⟩

/-- `NonCanonicalOperandFaults`: the fifth byte of a quad word at 00007FFFFFFFFFFCH has bit 47 set and bit 63 clear; and
one at FFFFFFFFFFFFFFFCH passes 2^64. -/
theorem test_noncanonical_hypotheses :
    Executable (.crc32R64Rm64 [.repne] noBits 0 (.base 6 .absent)) (reg (at_ .long64 0x1000) 6 0x00007FFFFFFFFFFC)
    ∧ (0x00007FFFFFFFFFFC + BitVec.ofNat 64 4 : QWord).getLsbD 47 ≠ (0x00007FFFFFFFFFFC + BitVec.ofNat 64 4 : QWord).getLsbD 63
    ∧ 2 ^ 64 ≤ (0xFFFFFFFFFFFFFFFC : QWord).toNat + 4 := by
  refine ⟨by unfold Executable Enabled; decide, by decide, by decide⟩

/-- `UdComesFirst` and `RegisterSourceRaisesOnlyUd`: with `LOCK`, and without the feature. -/
theorem test_ud_hypotheses :
    faultOf (exec (.crc32R32Rm8 [.lock, .repne] 0 (.reg 3)) (at_ .long64 0x1000)) = some .ud
    ∧ faultOf (exec (.crc32R32Rm8 [.repne] 0 (.reg 3))
        { at_ .long64 0x1000 with env := { (at_ .long64 0x1000).env with sse42 := false } }) = some .ud
    ∧ (Instr.crc32R32Rm8 [.lock, .repne] 0 (.reg 3)).wellFormed long = true := by decide

/-- `RaisedExceptionApplies` and `RealModeRaisesNoPageOrAlignmentFault`: an exception that is not `#UD`. -/
theorem test_raised_hypotheses :
    faultOf (exec (.crc32R32Rm16 [.repne] none 0 (.ind16 0 .absent)) (reg (reg (at_ .real 0x1000) 3 0xFFF0) 6 0xF))
      = some .gp0 := by decide

/-- `PassingTheTopOfThePcIsRefused`, at the boundary: five bytes from FFFCH exceed 2^16, and 2^64 and 2^32 likewise. -/
theorem test_past_top_hypotheses :
    refusalOf (exec (.crc32R32Rm8 [.repne] 0 (.reg 3)) (at_ .real 0xFFFC)) = some .pastTop
    ∧ refusalOf (exec (.crc32R32Rm8 [.repne] 0 (.reg 3)) (at_ .prot 0xFFFFFFFC)) = some .pastTop
    ∧ refusalOf (exec (.crc32R32Rm8 [.repne] 0 (.reg 3)) (at_ .long64 0xFFFFFFFFFFFFFFFC)) = some .pastTop := by decide

/-- `EndingAtTheTopOfThePcCompletes`: five bytes from FFFBH end at 2^16, and at 2^32 and 2^64 likewise, where the pc is the
free value and the rest is as ever. -/
theorem test_at_top_hypotheses :
    onNext (fun t => t.pc) (exec (.crc32R32Rm8 [.repne] 0 (.reg 3)) (at_ .real 0xFFFB)) = some 0x10000
    ∧ onNext (fun t => t.free) (exec (.crc32R32Rm8 [.repne] 0 (.reg 3)) (at_ .prot 0xFFFFFFFB)) = some 2
    ∧ onNext (fun t => t.free) (exec (.crc32R32Rm8 [.repne] 0 (.reg 3)) (at_ .long64 0xFFFFFFFFFFFFFFFB)) = some 1 := by
  decide

/-- The hypotheses on decoding are met: these bytes decode, in `Long64` and outside it. -/
theorem test_decode_hypotheses :
    (whole long [0xF2, 0x48, 0x0F, 0x38, 0xF1, 0xC3]).isSome = true ∧ (whole prot32 [0xF2, 0x0F, 0x38, 0xF0, 0xC4]).isSome = true := by
  decide

/-- `PrefixOrderDoesNotMatter`: another order of three prefixes. -/
theorem test_prefix_order_hypothesis :
    [LegacyPrefix.repne, .opSize, .seg .fs].Perm (Instr.crc32R32Rm16 [.seg .fs, .opSize, .repne] none 0 (.reg 1)).prefixes := by
  decide

/-- `SequenceOnOneDestinationComposes`, `OnlyDestinationAndPcChange`, the destination statements and the intrinsics: two
instructions on one destination, `r32` and `r64`, each completes. -/
theorem test_sequence_hypotheses :
    onNext (fun t => onNext (fun u => u.pc) (exec (.crc32R64Rm64 [.repne] noBits 0 (.reg 2)) t))
      (exec (.crc32R32Rm8 [.repne] 0 (.reg 3)) (at_ .long64 0x1000)) = some (some 0x100B) := by decide

/-- `R32DestinationUpperHalf` outside `Long64`: the counter passes the free value. -/
theorem test_free_hypotheses :
    onNext (fun t => t.free) (exec (.crc32R32Rm8 [.repne] 0 (.reg 3)) (at_ .prot 0x1000)) = some 1 := by decide

/-- `StepRunsTheDecodedInstruction`: the window at the pc decodes. -/
theorem test_step_hypothesis :
    (decode long (fetchFrom ((at_ .long64 0x1000).withCode [0xF2, 0x0F, 0x38, 0xF0, 0xC3]) 0 Config.maxInsnLen).1).isOk
      = true := by decide

/-- `CodeAtThePcIsRun`: the bytes stand at the pc, the last of them in the last mapped byte. -/
theorem test_code_at_pc :
    CodeAtPc ((paged (at_ .long64 0x1FFB)).withCode (encode (.crc32R32Rm8 [.repne] 0 (.reg 3))))
      (encode (.crc32R32Rm8 [.repne] 0 (.reg 3))) := by
  intro k b h
  have hk : k < 5 := (List.getElem?_eq_some_iff.1 h).1
  refine ⟨0x5000 + (0xFFB + k), ?_⟩
  interval_cases k <;> (obtain rfl := Option.some.inj h; decide)

/-- `OtherBytesAreRefused`: fifteen bytes of zeros can be fetched. -/
theorem test_other_bytes_hypothesis :
    (∀ k, k < Config.maxInsnLen → ∃ pa, fetchAddr (at_ .long64 0x1000) k = .ok pa)
    ∧ (decode long (fetchFrom (at_ .long64 0x1000) 0 Config.maxInsnLen).1).isOk = false := by
  refine ⟨fun k hk => ⟨0x1000 + k, ?_⟩, by decide⟩
  revert k; decide

/-- `PlacedInstructionIsTheFirstToRun`: an instruction of the reset context. -/
theorem test_placed_hypothesis :
    (Instr.crc32R32Rm16 [.repne] none 0 (.ind16 0 .absent)).wellFormed Config.resetCtx = true := by decide

/-- `StepKeepsTheInvariant` and `RunsNeverChangeMemory`: a state with the invariant that steps. -/
theorem test_invariant_hypotheses :
    ((at_ .long64 0x1000).withCode [0xF2, 0x0F, 0x38, 0xF0, 0xC3]).mem.wf = true
    ∧ onNext (fun t => t.pc) (stepOn (at_ .long64 0x1000) [0xF2, 0x0F, 0x38, 0xF0, 0xC3]) = some 0x1005 := by decide

/-- `FaultsDoNotDependOnData`: two states that differ in registers and memory and agree on the address. -/
theorem test_fault_independence_hypotheses :
    let i : Instr := .crc32R32Rm8 [.repne] 0 (.base 6 .absent)
    effectiveAddress i (bytesAt (reg (at_ .long64 0x1000) 0 7) 0 [1]) = effectiveAddress i (at_ .long64 0x1000) := by decide

/-- `DoubleWordFormOfARegisterWithItselfIsZero`: EDX with EDX, and R9D with R9D. -/
theorem test_itself_hypotheses :
    Executable (.crc32R32Rm32 [.repne] none 2 (.reg 2)) (at_ .prot 0x1000)
    ∧ Executable (.crc32R32Rm32 [.repne] (some ⟨true, false, true⟩) 1 (.reg 1)) (at_ .long64 0x1000)
    ∧ bitR (some ⟨true, false, true⟩) = bitB (some ⟨true, false, true⟩) := by
  refine ⟨by unfold Executable Enabled; decide, by unfold Executable Enabled; decide, by decide⟩

/-- `PrivilegeLevelMattersOnlyToTheChecks` and `UpperHalvesDoNotMatterOutsideLong64`: unchecked, unpaged, outside
`Long64`. -/
theorem test_unchecked_hypotheses :
    (at_ .prot 0x1000).env.alignCheck = false ∧ (at_ .prot 0x1000).env.paging = .off
    ∧ (at_ .prot 0x1000).env.ctx.mode ≠ .long64 := by decide

/-- `AddressSizeSelectsTheTable`, a memory source under each of R91's cases: `67` toggles the default outside `Long64`, and
in `Long64` gives 32-bit addressing. -/
theorem test_address_size_hypotheses :
    (whole prot32 [0xF2, 0x0F, 0x38, 0xF0, 0x00]).map Instr.rm = some (.base 0 .absent)
    ∧ (whole prot32 [0x67, 0xF2, 0x0F, 0x38, 0xF0, 0x00]).map Instr.rm = some (.ind16 0 .absent)
    ∧ (whole real16 [0xF2, 0x0F, 0x38, 0xF0, 0x00]).map Instr.rm = some (.ind16 0 .absent)
    ∧ (whole real16 [0x67, 0xF2, 0x0F, 0x38, 0xF0, 0x00]).map Instr.rm = some (.base 0 .absent)
    ∧ (whole long [0x67, 0xF2, 0x0F, 0x38, 0xF0, 0x00]).map Instr.rm = some (.base 0 .absent) := by decide

/-- In `Long64` the address of the same form is 64 bits wide, and 32 with `67` (30_encoding R91). -/
theorem test_address_width :
    effectiveAddress (.crc32R32Rm8 [.repne] 0 (.base 0 (.disp8 0x10))) (reg (at_ .long64 0) 0 0xFFFFFFF8) = 0x100000008
    ∧ effectiveAddress (.crc32R32Rm8 [.addrSize, .repne] 0 (.base 0 (.disp8 0x10))) (reg (at_ .long64 0) 0 0xFFFFFFF8) = 8
    ∧ (Instr.crc32R32Rm8 [.addrSize, .repne] 0 (.base 0 (.disp8 0x10))).wellFormed long = true := by decide

/-- `FetchReadsThroughCodeSegment`: the first byte after reset is at FFFFFFF0H. -/
theorem test_fetch_at_reset : (fetchAddr State.reset 0).toOption = some 0xFFFFFFF0 := by decide

/-- Where the clauses on the segment of an operand meet: an override and none, each well formed. -/
theorem test_segment_hypotheses :
    (Instr.crc32R32Rm8 [.seg .fs, .repne] 0 (.base 3 .absent)).wellFormed long = true
    ∧ (Instr.crc32R32Rm8 [.repne] 0 (.ind16 2 .absent)).wellFormed real16 = true := by decide

/-- Where every row of the 16-bit table reads its address (30_encoding R92): registers BX = 1, BP = 2, SI = 4, DI = 8. -/
theorem test_address16_rows :
    (List.range 8).map (fun k => (effectiveAddress (.crc32R32Rm8 [.repne] 0 (.ind16 (BitVec.ofNat 3 k) (.disp8 0x10)))
      (reg (reg (reg (reg (at_ .real 0) 3 1) 5 2) 6 4) 7 8)).toNat)
    = [0x15, 0x19, 0x16, 0x1A, 0x14, 0x18, 0x12, 0x11] := by decide

/-- The index field 4 is no index without REX.X and register 12 with it (30_encoding R93). -/
theorem test_sib_index_four :
    effectiveAddress (.crc32R64Rm64 [.repne] ⟨false, false, false⟩ 0 (.sib 2 4 3 .absent))
      (reg (reg (reg (at_ .long64 0) 3 0x100) 4 7) 12 1) = 0x100
    ∧ effectiveAddress (.crc32R64Rm64 [.repne] ⟨false, true, false⟩ 0 (.sib 2 4 3 .absent))
      (reg (reg (reg (at_ .long64 0) 3 0x100) 4 7) 12 1) = 0x104 := by decide

/-- The segment of an operand: SS for a base of RSP, DS for R12, and in `Long64` a CS override is ignored, FS not
(95 3.2). -/
theorem test_segments :
    operandSegment (.crc32R64Rm64 [.repne] ⟨false, false, false⟩ 0 (.sib 0 4 4 .absent)) .long64 = .ss
    ∧ operandSegment (.crc32R64Rm64 [.repne] ⟨false, false, true⟩ 0 (.sib 0 4 4 .absent)) .long64 = .ds
    ∧ operandSegment (.crc32R64Rm64 [.seg .cs, .repne] noBits 0 (.base 3 .absent)) .long64 = .ds
    ∧ operandSegment (.crc32R64Rm64 [.seg .fs, .repne] noBits 0 (.base 3 .absent)) .long64 = .fs
    ∧ operandSegment (.crc32R32Rm8 [.seg .cs, .repne] 0 (.base 3 .absent)) .prot = .cs := by decide

end Sys2Proof.Tests
end

section
/-! The decoder undoes the encoder (30_encoding R80, R81), stage by stage, and an admitted encoding fits in the window of
the fetch (R97). -/

namespace Sys2Proof

/-- The three conditions of a well-formed instruction, by name. -/
theorem Instr.wellFormed_iff {c : Ctx} {i : Instr} :
    i.wellFormed c = true ↔
      prefixProblem i.prefixes = none ∧ i.rowHolds c = true ∧ i.rm.wellFormed (asz c i.has67) = true := by
  simp [Instr.wellFormed, and_assoc]

/-! ### Operand 2 -/

@[simp] theorem takeDisp16_bytes (d : Disp16) (rest : List Byte) : takeDisp16 d.mod (d.bytes ++ rest) = some (d, rest) := by
  cases d with
  | absent => rfl
  | disp8 v => rfl
  | disp16 v => simp [takeDisp16, Disp16.mod, Disp16.bytes, take16_bytes16]

@[simp] theorem takeDisp32_bytes (d : Disp32) (rest : List Byte) : takeDisp32 d.mod (d.bytes ++ rest) = some (d, rest) := by
  cases d with
  | absent => rfl
  | disp8 v => rfl
  | disp32 v => simp [takeDisp32, Disp32.mod, Disp32.bytes, take32_bytes32]

@[simp] theorem Disp16.mod_eq_zero {d : Disp16} : d.mod = 0#2 ↔ d = .absent := by cases d <;> simp [Disp16.mod]
@[simp] theorem Disp32.mod_eq_zero {d : Disp32} : d.mod = 0#2 ↔ d = .absent := by cases d <;> simp [Disp32.mod]
@[simp] theorem Disp16.mod_ne_three (d : Disp16) : d.mod ≠ 3#2 := by cases d <;> simp [Disp16.mod]
@[simp] theorem Disp32.mod_ne_three (d : Disp32) : d.mod ≠ 3#2 := by cases d <;> simp [Disp32.mod]

/-- A SIB byte that names a base is read back, unless it is the byte of the form without one. -/
theorem takeSib_base {d : Disp32} {b : BitVec 3} (h : b ≠ 5#3 ∨ d ≠ .absent) (s : BitVec 2) (i : BitVec 3)
    (rest : List Byte) :
    takeSib d.mod ((s ++ i ++ b : BitVec 8) :: (d.bytes ++ rest)) = some (.sib s i b d, rest) := by
  obtain ⟨hs, hi, hb⟩ := modrm_fields s i b
  simp [takeSib, hs, hi, hb, not_and_or.2 h.symm]

theorem takeSib_noBase (s : BitVec 2) (i : BitVec 3) (v : DWord) (rest : List Byte) :
    takeSib 0#2 ((s ++ i ++ 5#3 : BitVec 8) :: (bytes32 v ++ rest)) = some (.sibNoBase s i v, rest) := by
  obtain ⟨hs, hi, hb⟩ := modrm_fields s i 5#3
  simp [takeSib, hs, hi, hb, take32_bytes32]

/-- Outside the 16-bit table the decoder reads a memory operand by the 32- and 64-bit one (30_encoding R93, R94). -/
theorem takeRm_of_ne_a16 {a : AddrSize} {mod : BitVec 2} (ha : a ≠ .a16) (hm : mod ≠ 3#2) (rm : BitVec 3) (bs : List Byte) :
    takeRm a mod rm bs = takeRm32 mod rm bs := by
  cases a with
  | a16 => exact absurd rfl ha
  | a32 => simp [takeRm, hm]
  | a64 => simp [takeRm, hm]

/-- Operand 2 is read back at the address size its shape is for. -/
theorem takeRm_extra {a : AddrSize} {m : Rm} (h : m.wellFormed a = true) (rest : List Byte) :
    takeRm a m.mod m.code (m.extra ++ rest) = some (m, rest) := by
  cases m with
  | reg c => simp [takeRm, Rm.mod, Rm.code, Rm.extra]
  | abs16 v =>
    obtain rfl : a = .a16 := by simpa [Rm.wellFormed] using h
    simp [takeRm, takeRm16, Rm.mod, Rm.code, Rm.extra, take16_bytes16]
  | ind16 c d =>
    obtain ⟨rfl, hd⟩ : a = .a16 ∧ (c ≠ 6#3 ∨ d ≠ .absent) := by simpa [Rm.wellFormed] using h
    simp [takeRm, takeRm16, Rm.mod, Rm.code, Rm.extra, not_and_or.2 hd.symm]
  | disp32 v =>
    have ha : a ≠ .a16 := by simpa [Rm.wellFormed] using h
    rw [takeRm_of_ne_a16 ha (by simp [Rm.mod])]
    simp [takeRm32, Rm.mod, Rm.code, Rm.extra, take32_bytes32]
  | base c d =>
    obtain ⟨⟨ha, hc⟩, hd⟩ : (a ≠ .a16 ∧ c ≠ 4#3) ∧ (c ≠ 5#3 ∨ d ≠ .absent) := by simpa [Rm.wellFormed] using h
    rw [takeRm_of_ne_a16 ha (by simp [Rm.mod])]
    simp [takeRm32, Rm.mod, Rm.code, Rm.extra, hc, not_and_or.2 hd.symm]
  | sib s i b d =>
    obtain ⟨ha, hd⟩ : a ≠ .a16 ∧ (b ≠ 5#3 ∨ d ≠ .absent) := by simpa [Rm.wellFormed] using h
    rw [takeRm_of_ne_a16 ha (by simp [Rm.mod])]
    exact takeSib_base hd s i rest
  | sibNoBase s i v =>
    have ha : a ≠ .a16 := by simpa [Rm.wellFormed] using h
    rw [takeRm_of_ne_a16 ha (by simp [Rm.mod])]
    exact takeSib_noBase s i v rest

/-! ### The bytes before ModRM -/

/-- A row with a REX byte holds in `Long64` alone (30_encoding R84). -/
theorem Instr.rowHolds_rex {c : Ctx} {i : Instr} (h : i.rowHolds c = true) (hr : i.rex ≠ none) : c.mode = .long64 := by
  cases i with
  | crc32R32Rm8 => exact absurd rfl hr
  | crc32R32Rm8Rex | crc32R64Rm8 | crc32R64Rm64 => simpa [Instr.rowHolds] using h
  | crc32R32Rm16 _ x | crc32R32Rm32 _ x =>
    have hx : x ≠ none := fun hx => hr (by simp [Instr.rex, hx])
    simp only [Instr.rowHolds, hx, decide_false, Bool.false_or, Bool.and_eq_true, decide_eq_true_eq] at h
    exact h.1

theorem scanRex_rexBytes {m : Mode} {i : Instr} (h : i.rex ≠ none → m = .long64) (rest : List Byte) :
    scanRex m (i.rexBytes ++ 0x0F :: rest) = (i.rex, 0x0F :: rest) := by
  unfold Instr.rexBytes
  cases hr : i.rex with
  | none => simp [scanRex, isRexByte]
  | some x => simp [scanRex, h (by simp [hr])]

/-- The byte after the legacy ones is none of them. -/
theorem prefixOfByte_head_rexBytes (i : Instr) (rest : List Byte) :
    ∀ b ∈ (i.rexBytes ++ 0x0F :: rest).head?, prefixOfByte b = none := by
  unfold Instr.rexBytes
  cases i.rex with
  | none => simp; decide
  | some x => simp

theorem takeOpcode_bytes (rexSeen wide : Bool) (m : Mode) (rest : List Byte) :
    takeOpcode rexSeen m (0x0F :: 0x38 :: (if wide then 0xF1 else 0xF0) :: rest) = .ok (wide, rest) := by
  cases wide <;> simp [takeOpcode]

/-! ### The whole -/

/-- Form selection gives an instruction back from its parts where its row's condition holds (30_encoding R104). -/
theorem selectForm_eq_self {c : Ctx} {i : Instr} (h : i.rowHolds c = true) :
    selectForm c i.prefixes i.rex i.wide i.reg i.rm = i := by
  cases i with
  | crc32R32Rm8 | crc32R32Rm8Rex | crc32R64Rm8 | crc32R64Rm64 => rfl
  | crc32R32Rm16 _ x | crc32R32Rm32 _ x =>
    obtain ⟨-, hsize⟩ := Bool.and_eq_true_iff.1 h
    rw [decide_eq_true_eq, Instr.has66, Instr.prefixes] at hsize
    cases x <;> simp only [selectForm, Instr.prefixes, Instr.rex, Instr.wide, Instr.reg, Instr.rm, Option.map] <;>
      rw [hsize]

/-- The encoder's bytes, grouped as the decoder's stages take them. -/
theorem encode_append (i : Instr) (rest : List Byte) :
    encode i ++ rest = i.prefixes.map LegacyPrefix.byte ++ (i.rexBytes ++ (0x0F : Byte) :: 0x38 ::
      (if i.wide then 0xF1 else 0xF0) :: (i.rm.mod ++ i.reg ++ i.rm.code : BitVec 8) :: (i.rm.extra ++ rest)) := by
  simp [encode]

/-- Decoding the bytes of a well-formed instruction gives it back, with whatever bytes follow (30_encoding R80, R81). -/
theorem decode_encode_append {c : Ctx} {i : Instr} (h : i.wellFormed c = true) (rest : List Byte) :
    decode c (encode i ++ rest) = .ok (i, rest) := by
  obtain ⟨hpfx, hrow, hrm⟩ := Instr.wellFormed_iff.1 h
  obtain ⟨hmod, hreg, hcode⟩ := modrm_fields i.rm.mod i.reg i.rm.code
  have hop := takeRm_extra hrm rest
  rw [Instr.has67] at hop
  rw [encode_append]
  simp only [decode, scanPrefixes_append _ (prefixOfByte_head_rexBytes i _),
    scanRex_rexBytes (Instr.rowHolds_rex hrow), takeOpcode_bytes, hmod, hreg, hcode, hop, hpfx, selectForm_eq_self hrow]

/-! ### The length of an admitted encoding -/

/-- The legacy prefixes fall into the five groups that the discipline counts (30_encoding R83). -/
theorem length_eq_sum_of_groups (ps : List LegacyPrefix) :
    ps.length = ps.count .repne + ps.count .lock + ps.count .opSize + ps.count .addrSize
      + ps.countP LegacyPrefix.isSeg := by
  induction ps with
  | nil => rfl
  | cons p ps ih =>
    cases p <;> simp only [List.length_cons, List.count_cons, List.countP_cons, LegacyPrefix.isSeg, beq_iff_eq,
      reduceCtorEq, if_true, if_false, Bool.false_eq_true] <;> omega

theorem length_le_five_of_prefixProblem {ps : List LegacyPrefix} (h : prefixProblem ps = none) : ps.length ≤ 5 := by
  have hsum := length_eq_sum_of_groups ps
  unfold prefixProblem at h
  split_ifs at h with h0 h1 h2
  simp only [Bool.or_eq_true, decide_eq_true_eq] at h1
  omega

theorem Rm.extraSize_le_five (m : Rm) : m.extraSize ≤ 5 := by
  have h16 (d : Disp16) : d.size ≤ 2 := by cases d <;> simp [Disp16.size]
  have h32 (d : Disp32) : d.size ≤ 4 := by cases d <;> simp [Disp32.size]
  cases m with
  | ind16 _ d => exact (h16 d).trans (by omega)
  | base _ d => exact (h32 d).trans (by omega)
  | sib _ _ _ d => have := h32 d; simp only [Rm.extraSize]; omega
  | reg | abs16 | disp32 | sibNoBase => simp [Rm.extraSize]

/-- No admitted encoding is longer than `MAX_INSN_LEN` (30_encoding R97). -/
theorem Instr.length_le_maxInsnLen {c : Ctx} {i : Instr} (h : i.wellFormed c = true) : i.length ≤ Config.maxInsnLen := by
  obtain ⟨hpfx, -, -⟩ := Instr.wellFormed_iff.1 h
  have hp := length_le_five_of_prefixProblem hpfx
  have hm := i.rm.extraSize_le_five
  simp only [Instr.length, Config.maxInsnLen]
  split <;> omega

end Sys2Proof
end

section
/-! What the fetch reads at the pc, and what a step then does (00_scope R17, 10_state R26). -/

namespace Sys2Proof.Machine

open Sys2Proof.Safety

/-! ### The window -/

theorem fetchFrom_succ_ok {s : State} {k pa : Nat} (h : fetchAddr s k = .ok pa) (fuel : Nat) :
    fetchFrom s k (fuel + 1)
      = (readByte s.mem pa :: (fetchFrom s (k + 1) fuel).1, (fetchFrom s (k + 1) fuel).2) := by
  simp [fetchFrom, h]

/-- Bytes that stand at byte `k` on, and are no more than the window takes, are the head of what is fetched, whatever
stands behind them. -/
theorem fetchFrom_head {s : State} {bs : List Byte} {k fuel : Nat}
    (h : ∀ j b, bs[j]? = some b → ∃ pa, fetchAddr s (k + j) = .ok pa ∧ readByte s.mem pa = b) (hf : bs.length ≤ fuel) :
    ∃ rest, (fetchFrom s k fuel).1 = bs ++ rest := by
  induction bs generalizing k fuel with
  | nil => exact ⟨_, rfl⟩
  | cons b bs ih =>
    obtain ⟨fuel, rfl⟩ : ∃ n, fuel = n + 1 := ⟨fuel - 1, by simp at hf; omega⟩
    obtain ⟨pa, hpa, hb⟩ : ∃ pa, fetchAddr s k = .ok pa ∧ readByte s.mem pa = b := h 0 b rfl
    have htail : ∀ j c, bs[j]? = some c → ∃ pa, fetchAddr s (k + 1 + j) = .ok pa ∧ readByte s.mem pa = c :=
      fun j c hj => by simpa [Nat.add_assoc, Nat.add_comm 1] using h (j + 1) c (by simpa using hj)
    obtain ⟨rest, hrest⟩ := ih htail (Nat.le_of_succ_le_succ hf)
    exact ⟨rest, by rw [fetchFrom_succ_ok hpa]; simp [hrest, hb]⟩

/-- A window whose bytes can all be fetched ends for no reason but its length. -/
theorem fetchFrom_complete {s : State} {k fuel : Nat} (h : ∀ j, j < fuel → ∃ pa, fetchAddr s (k + j) = .ok pa) :
    (fetchFrom s k fuel).2 = none := by
  induction fuel generalizing k with
  | zero => rfl
  | succ fuel ih =>
    obtain ⟨pa, hpa⟩ : ∃ pa, fetchAddr s k = .ok pa := h 0 (Nat.succ_pos fuel)
    rw [fetchFrom_succ_ok hpa]
    exact ih fun j hj => by simpa [Nat.add_assoc, Nat.add_comm 1] using h (j + 1) (Nat.succ_lt_succ hj)

/-! ### Fetch and step -/

theorem fetchInstr_of_decode_ok {s : State} {i : Instr} {rest : List Byte}
    (h : decode s.env.ctx (fetchFrom s 0 Config.maxInsnLen).1 = .ok (i, rest)) : fetchInstr s = .ok i := by
  simp [fetchInstr, h]

/-- A window that does not decode is refused with the decoder's reason; only where it is truncated by a byte that cannot
be fetched does that byte's reason take its place. -/
theorem fetchInstr_of_decode_error {s : State} {e : DecodeError}
    (h : decode s.env.ctx (fetchFrom s 0 Config.maxInsnLen).1 = .error e)
    (hw : (fetchFrom s 0 Config.maxInsnLen).2 = none) : fetchInstr s = .error (.notCrc32 e) := by
  cases e <;> simp [fetchInstr, h, hw]

theorem step_of_fetchInstr_ok {s : State} {i : Instr} (h : fetchInstr s = .ok i) : step s = exec i s := by
  simp [step, h]

theorem step_of_fetchInstr_error {s : State} {r : Refusal} (h : fetchInstr s = .error r) : step s = .refused r := by
  simp [step, h]

/-- The bytes of a well-formed instruction, where they stand at the pc, are fetched as that instruction. -/
theorem fetchInstr_of_codeAtPc {s : State} {i : Instr} (hw : i.wellFormed s.env.ctx = true)
    (hc : CodeAtPc s (encode i)) : fetchInstr s = .ok i := by
  have hfits : (encode i).length ≤ Config.maxInsnLen := length_encode i ▸ Instr.length_le_maxInsnLen hw
  obtain ⟨rest, hrest⟩ := fetchFrom_head (k := 0) (fun j b hj => by simpa using hc j b hj) hfits
  exact fetchInstr_of_decode_ok (hrest ▸ decode_encode_append hw rest)

/-! ### The obligations -/

/-- Settles O51: the window begins with the encoding, and decoding undoes encoding. -/
theorem codeAtThePcIsRun : Obligations.CodeAtThePcIsRun := by
  unfold Obligations.CodeAtThePcIsRun
  intro s i hw hc
  exact step_of_fetchInstr_ok (fetchInstr_of_codeAtPc hw hc)

/-- Settles O53: a window fetched whole leaves the decoder's reason the only one. -/
theorem otherBytesAreRefused : Obligations.OtherBytesAreRefused := by
  unfold Obligations.OtherBytesAreRefused
  intro s e hall hd
  have hwhole : (fetchFrom s 0 Config.maxInsnLen).2 = none :=
    fetchFrom_complete fun j hj => by simpa using hall j hj
  exact step_of_fetchInstr_error (fetchInstr_of_decode_error hd hwhole)

/-- Settles O50: a window that decodes is fetched as its instruction, and the step is its meaning. -/
theorem stepRunsTheDecodedInstruction : Obligations.StepRunsTheDecodedInstruction := by
  unfold Obligations.StepRunsTheDecodedInstruction
  intro s i rest hd
  exact step_of_fetchInstr_ok (fetchInstr_of_decode_ok hd)

end Sys2Proof.Machine
end

section
/-! Registers and the pc (10_state R20 to R28): the slices of a register, what a completed instruction leaves in its
destination and its pc, and what a step reads of the state. -/

namespace Sys2Proof.Machine

open Sys2Proof.Safety

/-! ### Slices of a register -/

theorem r32_eq_slice (s : State) (i : RegNum) : s.r32 i = (s.r64 i).extractLsb' 0 32 :=
  ((append_slice_low (s.gpr i).hi (s.gpr i).lo (by decide)).trans (slice_whole _)).symm

/-- A slice of the low half is that slice of the whole register. -/
theorem lo_slice_eq {k n : Nat} (s : State) (i : RegNum) (h : k + n ≤ 32) :
    (s.gpr i).lo.extractLsb' k n = (s.r64 i).extractLsb' k n :=
  (append_slice_low (s.gpr i).hi (s.gpr i).lo h).symm

/-- A register whose upper half is 0 is its lower half, zero-extended. -/
theorem r64_of_hi_eq_zero {s : State} {i : RegNum} (h : (s.gpr i).hi = 0) : s.r64 i = (s.r32 i).setWidth 64 := by
  rw [State.r64, h, State.r32, BitVec.setWidth_eq_append (by decide)]
  rfl

/-! ### The widths of the pc -/

/-- The width of the pc by mode (10_state R27). -/
theorem pcWidth_eq (c : Ctx) :
    c.pcWidth = match c.mode with
      | .long64         => 64
      | .real | .v8086  => 16
      | .prot | .compat => if c.defaultOperandSize = .bits16 then 16 else 32 := by
  obtain ⟨m, d, a⟩ := c
  cases m with
  | long64 | real | v8086 => rfl
  | prot | compat => cases d <;> rfl

theorem passesTop_iff {s : State} {n : Nat} : s.passesTop n = true ↔ 2 ^ s.env.ctx.pcWidth < s.pc.toNat + n := by
  simp [State.passesTop]

/-- A pc of 16 bits stands in a register of 32 (10_state R20, R27). -/
theorem pcRegWidth_of_pcWidth_eq {c : Ctx} (h : c.pcWidth = 16) : c.pcRegWidth = 32 := by
  unfold Ctx.pcWidth at h
  unfold Ctx.pcRegWidth
  split_ifs at h ⊢
  · omega
  · rfl

/-- The pc register is wider than the pc only where the pc has 16 bits (10_state R20, R27). -/
theorem pcRegWidth_of_pcWidth_ne {c : Ctx} (h : c.pcWidth ≠ 16) : c.pcRegWidth = c.pcWidth := by
  unfold Ctx.pcWidth at h ⊢
  unfold Ctx.pcRegWidth
  split_ifs at h ⊢
  · rfl
  · cases hd : c.operandDefault with
    | bits16 => simp [hd] at h
    | bits32 => rfl

/-! ### The counter, the destination and the pc of a completed instruction -/

/-- A completed instruction writes the destination, keeps the flags and advances (40_crc32 R130). -/
theorem afterCrc32_eq (sz : SrcSize) (dw : DestSize) (i : Instr) (data : BitVec sz.bits) (s : State) :
    afterCrc32 sz dw i data s
      = (withFlags s.flags (writeDest dw (destReg i) (crc32cStep sz.bits (s.r32 (destReg i)) data) s)).advance
          i.length := rfl

/-- Only an `r32` destination outside `Long64` takes a free value. -/
theorem writeDest_free (w : DestSize) (d : RegNum) (v : DWord) (s : State) :
    (writeDest w d v s).free = if w = .r32 ∧ s.env.ctx.mode ≠ .long64 then s.free + 1 else s.free := by
  cases w with
  | r64 => simp [writeDest]
  | r32 => by_cases h : s.env.ctx.mode = .long64 <;> simp [writeDest, State.writeR32, h]

theorem gpr_writeR32_free {s : State} (h : s.env.ctx.mode ≠ .long64) (d : RegNum) (v : DWord) :
    (s.writeR32 d v).gpr d = { hi := Config.freeUpper s.free, lo := v } := by
  simp [State.writeR32, h, State.gpr, State.setGpr]

theorem advance_pc (s : State) (n : Nat) :
    (s.advance n).pc = if s.pc.toNat + n < 2 ^ s.env.ctx.pcRegWidth then s.nextPc n else s.freePc := by
  unfold State.advance; split <;> rfl

theorem advance_free (s : State) (n : Nat) :
    (s.advance n).free = if s.pc.toNat + n < 2 ^ s.env.ctx.pcRegWidth then s.free else s.free + 1 := by
  unfold State.advance; split <;> rfl

theorem afterCrc32_free (sz : SrcSize) (dw : DestSize) (i : Instr) (data : BitVec sz.bits) (s : State) :
    (afterCrc32 sz dw i data s).free
      = (if dw = .r32 ∧ s.env.ctx.mode ≠ .long64 then s.free + 1 else s.free)
        + (if s.pc.toNat + i.length < 2 ^ s.env.ctx.pcRegWidth then 0 else 1) := by
  simp only [afterCrc32, advance_free, writeDest_pc, writeDest_env, writeDest_free]
  split <;> rfl

/-- Where the pc register cannot hold the end of a completed instruction, the pc is the free value at the counter before
its last advance (log entry 29). -/
theorem afterCrc32_pc_free {sz : SrcSize} {dw : DestSize} {i : Instr} {data : BitVec sz.bits} {s : State}
    (h : ¬ s.pc.toNat + i.length < 2 ^ s.env.ctx.pcRegWidth) :
    ∃ k, s.free ≤ k ∧ (afterCrc32 sz dw i data s).free = k + 1
      ∧ (afterCrc32 sz dw i data s).pc.toNat = (Config.freePc k).toNat % 2 ^ s.env.ctx.pcRegWidth := by
  refine ⟨(writeDest dw (destReg i) (crc32cStep sz.bits (s.r32 (destReg i)) data) s).free, ?_, ?_, ?_⟩
  · rw [writeDest_free]; split <;> omega
  · rw [afterCrc32_free, writeDest_free, if_neg h]
  · simp only [afterCrc32, advance_pc, writeDest_pc, writeDest_env, if_neg h, freePc_toNat]

/-- An `r64` destination holds the zero-extended result (10_state R23). -/
theorem afterCrc32_r64_dest (sz : SrcSize) (i : Instr) (data : BitVec sz.bits) (s : State) :
    (afterCrc32 sz .r64 i data s).r64 (destReg i)
      = (crc32cStep sz.bits (s.r32 (destReg i)) data).setWidth 64 := by
  rw [← afterCrc32_r32_dest sz .r64 i data s]
  exact r64_of_hi_eq_zero (by rw [afterCrc32_gpr, writeDest, gpr_writeR64_same])

/-! ### What an instruction reads -/

/-- The template depends on the state through its checks and its source alone: states that agree on them both complete, or
stop alike. -/
theorem exec_agree {i : Instr} {s t : State} (hctx : t.env.ctx = s.env.ctx) (hsse : t.env.sse42 = s.env.sse42)
    (hpc : t.pc = s.pc)
    (hread : i.wellFormed s.env.ctx = true → readSource (srcSizeOf i) i t = readSource (srcSizeOf i) i s) :
    (∃ data, exec i s = .next (afterCrc32 (srcSizeOf i) (destSizeOf i) i data s)
        ∧ exec i t = .next (afterCrc32 (srcSizeOf i) (destSizeOf i) i data t))
      ∨ ((∀ u, exec i s ≠ .next u) ∧ exec i t = exec i s) := by
  simp only [exec_eq, execCrc32, State.passesTop, hctx, hsse, hpc]
  by_cases hw : i.wellFormed s.env.ctx = true
  · simp only [hread hw, hw]
    by_cases hud : (i.hasLock || !s.env.sse42) = true
    · right; simp [hud, raise, Stop.outcome]
    · simp only [hud]
      rcases readSource (srcSizeOf i) i s with (f | r) | data
      · right; simp [Stop.outcome]
      · right; simp [Stop.outcome]
      · by_cases htop : 2 ^ s.env.ctx.pcWidth < s.pc.toNat + i.length
        · right; simp [htop]
        · left; exact ⟨data, by simp [htop]⟩
  · right; simp [hw]

theorem mapNext_of_not_next {g : State → State} {o : Host.Outcome State Fault Refusal} (h : ∀ u, o ≠ .next u) :
    mapNext g o = o := by
  cases o with
  | next u => exact absurd rfl (h u)
  | fault f => rfl
  | refused r => rfl

/-! ### The flags are not read -/

@[simp] theorem r32_withFlags (f : DWord) (s : State) (r : RegNum) : (withFlags f s).r32 r = s.r32 r := rfl

theorem writeDest_withFlags (w : DestSize) (d : RegNum) (v f : DWord) (s : State) :
    writeDest w d v (withFlags f s) = withFlags f (writeDest w d v s) := by
  cases w with
  | r64 => rfl
  | r32 => by_cases h : s.env.ctx.mode = .long64 <;> simp [writeDest, State.writeR32, withFlags, h] <;> rfl

theorem advance_withFlags (n : Nat) (f : DWord) (s : State) :
    (withFlags f s).advance n = withFlags f (s.advance n) := by
  by_cases h : s.pc.toNat + n < 2 ^ s.env.ctx.pcRegWidth
  · rw [advance_of_lt h, advance_of_lt (s := withFlags f s) h]; rfl
  · rw [advance_of_not_lt h, advance_of_not_lt (s := withFlags f s) h]; rfl

theorem afterCrc32_withFlags (sz : SrcSize) (dw : DestSize) (i : Instr) (data : BitVec sz.bits) (f : DWord) (s : State) :
    afterCrc32 sz dw i data (withFlags f s) = withFlags f (afterCrc32 sz dw i data s) := by
  rw [afterCrc32_eq, afterCrc32_eq, ← advance_withFlags, r32_withFlags, writeDest_withFlags]
  rfl

/-! ### The upper halves are not read outside `Long64` -/

theorem asz_ne_a64 {c : Ctx} (h : c.mode ≠ .long64) (has67 : Bool) : asz c has67 ≠ .a64 := by
  simp only [asz, if_neg h]
  cases c.addressDefault <;> cases has67 <;> simp

/-- No encoding outside `Long64` reads a 64-bit source (30_encoding R103, R104). -/
theorem srcSizeOf_ne_b64 {c : Ctx} {i : Instr} (h : c.mode ≠ .long64) (hw : i.wellFormed c = true) :
    srcSizeOf i ≠ .b64 := by
  have hrow := (Instr.wellFormed_iff.1 hw).2.1
  cases i with
  | crc32R64Rm64 => exact absurd (Instr.rowHolds_rex hrow (by simp [Instr.rex])) h
  | _ => exact fun hb => by cases hb

section
variable {s t : State}

/-- A register source of at most 32 bits is a slice of the lower half. -/
theorem regSource_sameButUppers (h : SameButUppers s t) {sz : SrcSize} (hsz : sz ≠ .b64) (i : Instr) (code : BitVec 3) :
    regSource sz i code t = regSource sz i code s := by
  have hlo (r : RegNum) : (t.gpr r).lo = (s.gpr r).lo := h.1 r
  cases sz with
  | b8 => simp only [regSource, byteSource, State.r8lo, State.r8hi, hlo]
  | b16 => simp only [regSource, State.r16, hlo]
  | b32 => exact h.1 _
  | b64 => exact absurd rfl hsz

/-- Outside `Long64` an address is computed from 16- and 32-bit views (30_encoding R92, R93). -/
theorem effectiveAddress_sameButUppers (h : SameButUppers s t) (hm : s.env.ctx.mode ≠ .long64) (i : Instr) :
    effectiveAddress i t = effectiveAddress i s := by
  obtain ⟨hr, hpc, -, -, henv, -⟩ := h
  have h16 (rm : BitVec 3) : base16 rm t = base16 rm s := by
    have (r : RegNum) : t.r16 r = s.r16 r := congrArg (BitVec.extractLsb' 0 16) (hr r)
    simp only [base16, this]
  simp only [effectiveAddress, h16, State.nextPc, hpc, henv, funext hr]
  cases hz : asz s.env.ctx i.has67 with
  | a64 => exact absurd hz (asz_ne_a64 hm _)
  | a16 | a32 => rfl

theorem readOperand_congr (hmem : t.mem = s.mem) (henv : t.env = s.env) (hfree : t.free = s.free) (sz : SrcSize)
    (seg : SegReg) (ea : QWord) : readOperand sz seg ea t = readOperand sz seg ea s := by
  simp only [readOperand, hmem, henv, hfree]

theorem readSource_sameButUppers (h : SameButUppers s t) (hm : s.env.ctx.mode ≠ .long64) {sz : SrcSize}
    (hsz : sz ≠ .b64) (i : Instr) : readSource sz i t = readSource sz i s := by
  have hreg := regSource_sameButUppers h hsz i
  have hea := effectiveAddress_sameButUppers h hm i
  obtain ⟨-, -, -, hmem, henv, hfree⟩ := h
  simp only [readSource, hreg, hea, readOperand_congr hmem henv hfree, henv]

theorem writeDest_sameButUppers (h : SameButUppers s t) (w : DestSize) (d : RegNum) (v : DWord) :
    SameButUppers (writeDest w d v s) (writeDest w d v t) := by
  obtain ⟨hr, hpc, hflags, hmem, henv, hfree⟩ := h
  refine ⟨fun r => ?_, by simpa, by simpa, by simpa, by simpa, by simp only [writeDest_free, henv, hfree]⟩
  by_cases hd : r = d
  · rw [hd, r32_writeDest_same, r32_writeDest_same]
  · rw [r32_congr (gpr_writeDest_other hd), r32_congr (gpr_writeDest_other hd), hr]

theorem withFlags_sameButUppers (h : SameButUppers s t) (f : DWord) :
    SameButUppers (withFlags f s) (withFlags f t) := by
  obtain ⟨hr, hpc, -, hmem, henv, hfree⟩ := h
  exact ⟨hr, hpc, rfl, hmem, henv, hfree⟩

theorem advance_sameButUppers (h : SameButUppers s t) (n : Nat) : SameButUppers (s.advance n) (t.advance n) := by
  obtain ⟨hr, hpc, hflags, hmem, henv, hfree⟩ := h
  exact ⟨by simpa using hr, by simp only [advance_pc, State.nextPc, State.freePc, hpc, henv, hfree], by simpa,
    by simpa, by simpa, by simp only [advance_free, hpc, henv, hfree]⟩

theorem afterCrc32_sameButUppers (h : SameButUppers s t) (sz : SrcSize) (dw : DestSize) (i : Instr)
    (data : BitVec sz.bits) : SameButUppers (afterCrc32 sz dw i data s) (afterCrc32 sz dw i data t) := by
  have ⟨hr, _, hflags, _⟩ := h
  rw [afterCrc32_eq, afterCrc32_eq, hr, hflags]
  exact advance_sameButUppers (withFlags_sameButUppers (writeDest_sameButUppers h ..) _) _

theorem outcomesSameButUppers_refl (o : Host.Outcome State Fault Refusal) : OutcomesSameButUppers o o := by
  cases o with
  | next u => exact ⟨fun _ => rfl, rfl, rfl, rfl, rfl, rfl⟩
  | fault f => rfl
  | refused r => rfl

/-- Outside `Long64` an instruction has the same outcome, but for upper halves, from states that differ in these. -/
theorem exec_sameButUppers (h : SameButUppers s t) (hm : s.env.ctx.mode ≠ .long64) (i : Instr) :
    OutcomesSameButUppers (exec i s) (exec i t) := by
  have ⟨_, hpc, _, _, henv, _⟩ := h
  have hread (hw : i.wellFormed s.env.ctx = true) := readSource_sameButUppers h hm (srcSizeOf_ne_b64 hm hw) i
  rcases exec_agree (congrArg Env.ctx henv) (congrArg Env.sse42 henv) hpc hread with
    ⟨data, hs, ht⟩ | ⟨-, ht⟩
  · rw [hs, ht]
    exact afterCrc32_sameButUppers h ..
  · rw [ht]
    exact outcomesSameButUppers_refl _

/-! ### The fetch reads the pc, memory and the parameters -/

theorem fetchAddr_congr (hpc : t.pc = s.pc) (henv : t.env = s.env) (k : Nat) : fetchAddr t k = fetchAddr s k := by
  simp only [fetchAddr, State.nextPc, hpc, henv]

theorem fetchFrom_congr (hpc : t.pc = s.pc) (hmem : t.mem = s.mem) (henv : t.env = s.env) (k fuel : Nat) :
    fetchFrom t k fuel = fetchFrom s k fuel := by
  induction fuel generalizing k with
  | zero => rfl
  | succ fuel ih => simp only [fetchFrom, fetchAddr_congr hpc henv, hmem, ih]

theorem fetchInstr_congr (hpc : t.pc = s.pc) (hmem : t.mem = s.mem) (henv : t.env = s.env) :
    fetchInstr t = fetchInstr s := by
  simp only [fetchInstr, fetchFrom_congr hpc hmem henv, henv]

theorem step_sameButUppers (h : SameButUppers s t) (hm : s.env.ctx.mode ≠ .long64) :
    OutcomesSameButUppers (step s) (step t) := by
  have ⟨_, hpc, _, hmem, henv, _⟩ := h
  have hf := fetchInstr_congr hpc hmem henv
  cases hi : fetchInstr s with
  | error r => rw [step_of_fetchInstr_error hi, step_of_fetchInstr_error (hf.trans hi)]; rfl
  | ok i =>
    rw [step_of_fetchInstr_ok hi, step_of_fetchInstr_ok (hf.trans hi)]
    exact exec_sameButUppers h hm i

end

theorem sameButUppers_withUppers (u : Vector DWord 16) (s : State) : SameButUppers s (withUppers u s) := by
  have hr (r : RegNum) : (withUppers u s).r32 r = s.r32 r := by
    simp [withUppers, State.r32, State.gpr]
  unfold withUppers at hr ⊢
  exact ⟨hr, rfl, rfl, rfl, rfl, rfl⟩

/-- A byte that the fetch reaches is at an offset that does not wrap (log entry 12). -/
theorem lt_of_insideCode {e : Env} {off : Nat} (h : e.insideCode off = true) : off < 2 ^ 64 := by
  unfold Env.insideCode at h
  cases hm : e.ctx.mode with
  | real | v8086 =>
    have : off ≤ 0xFFFF := by simpa [hm] using h
    omega
  | prot | compat =>
    obtain ⟨hlt, -⟩ : off < 2 ^ 32 ∧ inRanges e.cs.inside off = true := by simpa [hm, inSegment] using h
    omega
  | long64 =>
    obtain ⟨hlt, -⟩ : off < 2 ^ 64 ∧ canonical off = true := by simpa [hm] using h
    exact hlt

/-- What the fetch of a byte has done where it answers an address (10_state R26). -/
theorem fetchAddr_ok {s : State} {k pa : Nat} (h : fetchAddr s k = .ok pa) :
    s.env.insideCode (s.pc.toNat + k) = true ∧ s.env.translate (s.env.linear .cs (s.nextPc k)) = .ok pa := by
  unfold fetchAddr at h
  split at h
  · cases h
  · rename_i hin
    cases ht : s.env.translate (s.env.linear .cs (s.nextPc k)) with
    | error c => simp [ht] at h
    | ok pa' =>
      simp only [ht] at h
      split at h
      · cases h
      · exact ⟨by simpa using hin, congrArg Except.ok (Except.ok.inj h)⟩

/-! ### The obligations -/

/-- Settles O57: a step that goes on leaves memory and the parameters, and its advance keeps the bounds of the pc. -/
theorem stepKeepsTheInvariant : Obligations.StepKeepsTheInvariant := by
  unfold Obligations.StepKeepsTheInvariant
  rintro s t ⟨hmem, -, -⟩ hstep
  obtain ⟨i, data, -, htop, rfl⟩ := step_next hstep
  exact ⟨by rwa [afterCrc32_mem], by simpa using afterCrc32_pc_bounds htop⟩

/-- Settles O60: the fetch reads no register, and outside `Long64` the instruction reads and keeps lower halves alone. -/
theorem upperHalvesDoNotMatterOutsideLong64 : Obligations.UpperHalvesDoNotMatterOutsideLong64 := by
  unfold Obligations.UpperHalvesDoNotMatterOutsideLong64
  intro s u hm
  exact step_sameButUppers (sameButUppers_withUppers u s) hm

/-- Settles O18: the destination is written with an upper half of 0, and the advance leaves it. -/
theorem r64DestinationHoldsTheZeroExtendedResult : Obligations.R64DestinationHoldsTheZeroExtendedResult := by
  unfold Obligations.R64DestinationHoldsTheZeroExtendedResult
  intro i s t hd h
  rw [exec_eq, hd, execCrc32_next] at h
  obtain ⟨-, -, -, -, data, hread, rfl⟩ := h
  exact ⟨data, hread, afterCrc32_r64_dest ..⟩

/-- Settles O19: the write takes the free value at the old counter outside `Long64`, and 0 inside. -/
theorem r32DestinationUpperHalf : Obligations.R32DestinationUpperHalf := by
  unfold Obligations.R32DestinationUpperHalf
  intro i s t hd h
  rw [exec_eq, hd, execCrc32_next] at h
  obtain ⟨-, -, -, -, data, hread, rfl⟩ := h
  refine ⟨data, hread, afterCrc32_r32_dest .., fun hm => by rw [afterCrc32_gpr_long64 hm], fun hm => ⟨?_, ?_, ?_⟩⟩
  · rw [afterCrc32_gpr, writeDest, gpr_writeR32_free hm]
  · simp only [afterCrc32_free, hm, ne_eq, not_false_eq_true, and_self, if_true]; omega
  · intro hlt; simp [afterCrc32_free, hm, hlt]

/-- Settles O49: a completed instruction leaves the flags, and other flags change neither its checks nor its source. -/
theorem flagsAreNeitherReadNorWritten : Obligations.FlagsAreNeitherReadNorWritten := by
  unfold Obligations.FlagsAreNeitherReadNorWritten
  refine ⟨fun i s t h => ?_, fun i s f => ?_⟩
  · rw [exec_eq, execCrc32_next] at h
    obtain ⟨-, -, -, -, data, -, rfl⟩ := h
    exact afterCrc32_flags ..
  · rcases exec_agree (i := i) (s := s) (t := withFlags f s) rfl rfl rfl (fun _ => rfl) with
      ⟨data, hs, ht⟩ | ⟨hstop, ht⟩
    · rw [hs, ht, afterCrc32_withFlags, mapNext]
    · rw [ht, mapNext_of_not_next hstop]

/-- Settles O54: the end exceeds the top of the width of the mode, so the advance refuses. -/
theorem passingTheTopOfThePcIsRefused : Obligations.PassingTheTopOfThePcIsRefused := by
  unfold Obligations.PassingTheTopOfThePcIsRefused
  intro i s data hen hread htop
  have hpass : s.passesTop i.length = true := by
    rw [passesTop_iff, pcWidth_eq]
    exact htop
  rw [exec_enabled hen, hread]
  exact if_pos hpass

/-- Settles O55: ending at the top exceeds nothing; the register holds a top of 2^16, and where it is as narrow as the pc
the free value stands in. -/
theorem endingAtTheTopOfThePcCompletes : Obligations.EndingAtTheTopOfThePcCompletes := by
  unfold Obligations.EndingAtTheTopOfThePcCompletes
  intro i s data hen hread hend
  refine ⟨_, exec_executable ⟨hen, hend.le⟩ hread, afterCrc32_r32_dest .., fun h16 => ?_, fun hne => ?_⟩
  · have hreg := pcRegWidth_of_pcWidth_eq h16
    rw [h16] at hend
    apply BitVec.eq_of_toNat_eq
    rw [afterCrc32_pc_toNat (by rw [hend, hreg]; decide), hend]
    rfl
  · exact afterCrc32_pc_free (by rw [hend, pcRegWidth_of_pcWidth_ne hne]; exact lt_irrefl _)

/-- Settles O17: every view lies in the lower half, which is the low part of the whole. -/
theorem viewsAreSlicesOfTheRegister : Obligations.ViewsAreSlicesOfTheRegister := by
  unfold Obligations.ViewsAreSlicesOfTheRegister
  refine fun s i => ⟨r32_eq_slice s i, lo_slice_eq s i (by decide), lo_slice_eq s i (by decide), fun j hj => ?_⟩
  obtain rfl : j.castLE (by decide) = i := Fin.ext hj
  exact lo_slice_eq s _ (by decide)

/-- Settles O52: what the fetch reaches is below 2^64, so the sum does not wrap. -/
theorem fetchReadsThroughCodeSegment : Obligations.FetchReadsThroughCodeSegment := by
  unfold Obligations.FetchReadsThroughCodeSegment
  intro s k pa h
  obtain ⟨hin, htr⟩ := fetchAddr_ok h
  have hlt := lt_of_insideCode hin
  refine ⟨htr, ?_⟩
  rw [BitVec.toNat_add, BitVec.toNat_ofNat]
  omega

end Sys2Proof.Machine
end

section
/-! Memory and its checked read (20_memory R51 to R71): the value of bytes in address order, the linear address, code
placed at the pc, which exceptions a memory source raises, and what a run leaves of memory. -/

namespace Sys2Proof.Machine

open Sys2Proof.Safety

/-! ### The value of bytes in address order -/

theorem leValue_cons_div (b : Byte) (bs : List Byte) : leValue (b :: bs) / 2 ^ 8 = leValue bs := by
  have hb := b.isLt
  simp only [leValue]
  omega

theorem leValue_cons_mod (b : Byte) (bs : List Byte) : leValue (b :: bs) % 2 ^ 8 = b.toNat := by
  have hb := b.isLt
  simp only [leValue]
  omega

/-- Bytes left out from the front are divided away (20_memory R51). -/
theorem leValue_drop (bs : List Byte) (k : Nat) : leValue (bs.drop k) = leValue bs / 2 ^ (8 * k) := by
  induction k generalizing bs with
  | zero => simp
  | succ k ih =>
    cases bs with
    | nil => simp [leValue]
    | cons b bs =>
      rw [List.drop_succ_cons, ih, ← leValue_cons_div b, Nat.div_div_eq_div_mul, ← pow_add, Nat.mul_succ, Nat.add_comm]

/-- The value of the first `n` bytes is the remainder modulo 2^(8n) (20_memory R51). -/
theorem leValue_take (bs : List Byte) (n : Nat) : leValue (bs.take n) = leValue bs % 2 ^ (8 * n) := by
  induction n generalizing bs with
  | zero => simp [leValue, Nat.mod_one]
  | succ n ih =>
    cases bs with
    | nil => simp [leValue]
    | cons b bs =>
      rw [List.take_succ_cons, leValue, ih, Nat.mul_succ, Nat.add_comm (8 * n), pow_add, Nat.mod_mul,
        leValue_cons_mod, leValue_cons_div]
      rfl

theorem leValue_mod_length (bs : List Byte) : leValue bs % 2 ^ (8 * bs.length) = leValue bs := by
  rw [← leValue_take, List.take_length]

theorem ofNat_leValue_singleton (b : Byte) : BitVec.ofNat 8 (leValue [b]) = b := by
  simp [leValue]

/-- A slice of the value, from byte `k` on and `n` bytes long, is the value of those bytes (20_memory R51 to R53). -/
theorem leValue_slice (bs : List Byte) (k n : Nat) :
    (BitVec.ofNat (8 * bs.length) (leValue bs)).extractLsb' (8 * k) (8 * n)
      = BitVec.ofNat (8 * n) (leValue ((bs.drop k).take n)) := by
  apply BitVec.eq_of_toNat_eq
  rw [BitVec.extractLsb'_toNat, BitVec.toNat_ofNat, leValue_mod_length, Nat.shiftRight_eq_div_pow, ← leValue_drop,
    BitVec.toNat_ofNat, leValue_take, Nat.mod_mod]

theorem leValue_slice_byte {bs : List Byte} {k : Nat} {b : Byte} (h : bs[k]? = some b) :
    (BitVec.ofNat (8 * bs.length) (leValue bs)).extractLsb' (8 * k) 8 = b := by
  have hone : (bs.drop k).take 1 = [b] := by
    obtain ⟨hk, rfl⟩ := List.getElem?_eq_some_iff.1 h
    rw [List.drop_eq_getElem_cons hk]
    rfl
  calc _ = BitVec.ofNat 8 (leValue ((bs.drop k).take 1)) := leValue_slice bs k 1
    _ = b := by rw [hone, ofNat_leValue_singleton]

/-! ### The linear address -/

/-- 20_memory R63, as numbers. -/
theorem linear_toNat (e : Env) (seg : SegReg) (ea : QWord) :
    (e.linear seg ea).toNat
      = if e.ctx.mode = .long64 then
          ((if seg = .fs ∨ seg = .gs then (e.segment seg).base.toNat else 0) + ea.toNat) % 2 ^ 64
        else ((e.segment seg).base.toNat + ea.toNat) % 2 ^ 32 := by
  unfold Env.linear
  split
  · split <;> simp [BitVec.toNat_add, Nat.mod_eq_of_lt ea.isLt]
  · simp only [BitVec.toNat_setWidth, BitVec.toNat_add]
    omega

/-! ### Code placed at the pc -/

/-- Placing bytes leaves every address that the fetch of none of them reads. -/
theorem readByte_placeFrom_other {s : State} {k pa : Nat} {bs : List Byte} (m : Memory)
    (h : ∀ j, j < bs.length → fetchAddr s (k + j) ≠ .ok pa) : readByte (placeFrom s k bs m) pa = readByte m pa := by
  induction bs generalizing k m with
  | nil => rfl
  | cons b bs ih =>
    have htail (m : Memory) : readByte (placeFrom s (k + 1) bs m) pa = readByte m pa :=
      ih m fun j hj => by simpa [Nat.add_assoc, Nat.add_comm 1] using h (j + 1) (Nat.succ_lt_succ hj)
    unfold placeFrom
    split
    · exact htail m
    · rename_i qa hq
      have hne : pa ≠ qa := fun heq => h 0 (Nat.succ_pos _) (heq ▸ hq)
      rw [htail, readByte_writeByte_other m b hne]

/-- Placing bytes that are fetched from distinct addresses puts each where its fetch reads. -/
theorem readByte_placeFrom {s : State} {k : Nat} {bs : List Byte} {m : Memory} (hm : m.wf = true) {addr : Nat → Nat}
    (hinj : addr.Injective) (ha : ∀ j, j < bs.length → fetchAddr s (k + j) = .ok (addr (k + j)))
    {j : Nat} {b : Byte} (hb : bs[j]? = some b) : readByte (placeFrom s k bs m) (addr (k + j)) = b := by
  induction bs generalizing k j m with
  | nil => cases hb
  | cons c bs ih =>
    have hhead : fetchAddr s k = .ok (addr k) := ha 0 (Nat.succ_pos _)
    have htail (j : Nat) (hj : j < bs.length) : fetchAddr s (k + 1 + j) = .ok (addr (k + 1 + j)) := by
      simpa [Nat.add_assoc, Nat.add_comm 1] using ha (j + 1) (Nat.succ_lt_succ hj)
    simp only [placeFrom, hhead]
    cases j with
    | zero =>
      obtain rfl : c = b := by simpa using hb
      change readByte _ (addr k) = c
      rw [readByte_placeFrom_other, readByte_writeByte hm]
      intro j hj heq
      have := hinj (Except.ok.inj ((htail j hj).symm.trans heq))
      omega
    | succ j =>
      rw [Nat.add_comm j, ← Nat.add_assoc]
      exact ih (wf_writeByte hm) htail (by simpa using hb)

/-- Bytes placed at the pc stand there, where their fetch reads distinct addresses (20_memory R71). -/
theorem codeAtPc_withCode {s : State} {bs : List Byte} (hm : s.mem.wf = true) {addr : Nat → Nat}
    (hinj : addr.Injective) (ha : ∀ k, k < bs.length → fetchAddr s k = .ok (addr k)) :
    CodeAtPc (s.withCode bs) bs := by
  intro k b hb
  have hk : k < bs.length := (List.getElem?_eq_some_iff.1 hb).1
  refine ⟨addr k, (fetchAddr_congr (withCode_pc ..) (withCode_env ..) k).trans (ha k hk), ?_⟩
  simpa [State.withCode] using readByte_placeFrom (k := 0) hm hinj (by simpa using ha) hb

/-- The window of the fetch after reset (log entry 8). -/
theorem fetchAddr_reset {k : Nat} (h : k < Config.maxInsnLen) : fetchAddr State.reset k = .ok (0xFFFFFFF0 + k) := by
  revert k; decide

/-! ### The exceptions of a memory source -/

theorem readSource_not_register {sz : SrcSize} {i : Instr} {s : State} (h : ¬ IsRegister i.rm) :
    readSource sz i s = readOperand sz (operandSegment i s.env.ctx.mode) (effectiveAddress i s) s :=
  readSource_mem fun code hc => h (by rw [hc]; trivial)

/-- An enabled instruction with a memory source raises only an exception that applies to it. -/
theorem applies_of_exec_fault {i : Instr} {s : State} {f : Fault} (hen : Enabled i s) (hrm : ¬ IsRegister i.rm)
    (h : exec i s = .fault f) :
    Applies s.env (operandSegment i s.env.ctx.mode) (effectiveAddress i s) (srcSizeOf i).bytes f := by
  obtain ⟨-, hs, hl⟩ := hen
  rw [exec_eq, execCrc32_fault, readSource_not_register hrm, readOperand_fault, hasLock_eq_true] at h
  obtain ⟨-, ⟨hlock | hsse, -⟩ | ⟨-, -, hc⟩⟩ := h
  · exact absurd hlock hl
  · simp [hs] at hsse
  · exact (mem_operandFaults_iff (bytes_pos _)).1 (chooseFault_mem hc)

/-- Where one exception alone applies, it is the one collected, and it is collected once. -/
theorem operandFaults_eq_singleton {e : Env} {seg : SegReg} {ea : QWord} {n : Nat} {f : Fault} (hn : 0 < n)
    (hf : Applies e seg ea n f) (honly : ∀ g, Applies e seg ea n g → g = f) : operandFaults e seg ea n = [f] := by
  have hnodup : (operandFaults e seg ea n).Nodup := List.nodup_dedup _
  refine List.perm_singleton.1 ((List.perm_ext_iff_of_nodup hnodup (List.nodup_singleton f)).2 fun g => ?_)
  rw [mem_operandFaults_iff hn, List.mem_singleton]
  exact ⟨honly g, fun hg => hg ▸ hf⟩

/-- Where one exception alone applies to the memory source of an enabled instruction, that one is raised (60_exceptions
R168). -/
theorem exec_fault_of_only {i : Instr} {s : State} {f : Fault} (hen : Enabled i s) (hrm : ¬ IsRegister i.rm)
    (hf : Applies s.env (operandSegment i s.env.ctx.mode) (effectiveAddress i s) (srcSizeOf i).bytes f)
    (honly : ∀ g, Applies s.env (operandSegment i s.env.ctx.mode) (effectiveAddress i s) (srcSizeOf i).bytes g → g = f) :
    exec i s = .fault f := by
  have hread : readSource (srcSizeOf i) i s = .error (.fault f) := by
    rw [readSource_not_register hrm, readOperand_fault, operandFaults_eq_singleton (bytes_pos _) hf honly]
    rfl
  rw [exec_enabled hen, hread]
  rfl

/-- The exceptions that apply, by the check that fails (20_memory R57, 60_exceptions R162 to R166). -/
theorem applies_iff {e : Env} {seg : SegReg} {ea : QWord} {n : Nat} {f : Fault} :
    Applies e seg ea n f ↔
      (f = segmentFault seg ∧ SegmentBad e seg ea n)
      ∨ (f = .ac0 ∧ Unaligned e seg ea n)
      ∨ ∃ code, f = .pf code ∧ ∃ k, k < n ∧ e.translate (e.linearAfter (e.linear seg ea) k) = .error code := by
  by_cases h : seg = .ss <;> cases f <;> simp [Applies, segmentFault, h]

/-- Where nothing is unaligned and every translation answers, only the exception of the segment check can apply. -/
theorem applies_iff_segment {e : Env} {seg : SegReg} {ea : QWord} {n : Nat} {f : Fault} (hu : ¬ Unaligned e seg ea n)
    (ht : ∀ la code, e.translate la ≠ .error code) :
    Applies e seg ea n f ↔ f = segmentFault seg ∧ SegmentBad e seg ea n := by
  simp [applies_iff, hu, ht]

/-- Where nothing is unaligned and every translation answers, a bad operand raises the exception of its segment. -/
theorem exec_segmentFault {i : Instr} {s : State} (hen : Enabled i s) (hrm : ¬ IsRegister i.rm)
    (hu : ¬ Unaligned s.env (operandSegment i s.env.ctx.mode) (effectiveAddress i s) (srcSizeOf i).bytes)
    (ht : ∀ la code, s.env.translate la ≠ .error code)
    (hbad : SegmentBad s.env (operandSegment i s.env.ctx.mode) (effectiveAddress i s) (srcSizeOf i).bytes) :
    exec i s = .fault (segmentFault (operandSegment i s.env.ctx.mode)) :=
  exec_fault_of_only hen hrm ((applies_iff_segment hu ht).2 ⟨rfl, hbad⟩) fun _ hg => ((applies_iff_segment hu ht).1 hg).1

/-- Real-address mode checks no alignment (20_memory R56). -/
theorem not_unaligned_real {e : Env} (h : e.ctx.mode = .real) (seg : SegReg) (ea : QWord) (n : Nat) :
    ¬ Unaligned e seg ea n := by
  simp [Unaligned, h]

/-- Real-address mode translates every address to itself (20_memory R64). -/
theorem translate_real {e : Env} (h : e.ctx.mode = .real) (la : QWord) : e.translate la = .ok la.toNat :=
  if_pos h

/-- With paging off every address is translated to itself (20_memory R64). -/
theorem translate_paging_off {e : Env} (h : e.paging = .off) (la : QWord) : e.translate la = .ok la.toNat := by
  simp [Env.translate, h]

theorem segmentBad_real {e : Env} (h : e.ctx.mode = .real) {seg : SegReg} {ea : QWord} {n : Nat} :
    SegmentBad e seg ea n ↔ 0xFFFF < ea.toNat + n - 1 ∨ Barred (e.segment seg) ea.toNat n := by
  simp only [SegmentBad, h]

theorem segmentBad_long64 {e : Env} (h : e.ctx.mode = .long64) {seg : SegReg} {ea : QWord} {n : Nat} :
    SegmentBad e seg ea n ↔
      (∃ k, k < n ∧ (2 ^ 64 ≤ (e.linear seg ea).toNat + k ∨ canonical ((e.linear seg ea).toNat + k) = false))
      ∨ Barred (e.segment seg) ea.toNat n := by
  simp only [SegmentBad, h]

/-- Bits 63 down to 47 of a canonical address are equal (20_memory R62). -/
theorem getLsbD_of_canonical {a : QWord} (h : canonical a.toNat = true) {j : Nat} (hlo : 47 ≤ j) (hhi : j < 64) :
    a.getLsbD j = a.getLsbD 63 := by
  have hbit {l : Nat} (hl : 47 ≤ l) : a.getLsbD l = (a.toNat / 2 ^ 47).testBit (l - 47) := by
    rw [Nat.testBit_div_two_pow, Nat.sub_add_cancel hl, BitVec.testBit_toNat]
  have htop : a.toNat / 2 ^ 47 = 0 ∨ a.toNat / 2 ^ 47 = 2 ^ 17 - 1 :=
    (Bool.or_eq_true_iff.1 h).imp of_decide_eq_true of_decide_eq_true
  rw [hbit hlo, hbit (by decide)]
  rcases htop with h0 | h1
  · simp only [h0, Nat.zero_testBit]
  · simp only [h1, Nat.testBit_two_pow_sub_one]
    simp only [decide_eq_decide]
    omega

/-! ### Completion and the frame of a run -/

/-- An executable instruction whose source can be read completes with the step on it (40_crc32 R130). -/
theorem completesWith_of_readSource {i : Instr} {s : State} {data : BitVec (srcSizeOf i).bits} (h : Executable i s)
    (hr : readSource (srcSizeOf i) i s = .ok data) :
    CompletesWith i s (destReg i) (crc32cStep (srcSizeOf i).bits (s.r32 (destReg i)) data) := by
  refine ⟨_, exec_executable h hr, afterCrc32_r32_dest .., fun hm => ?_, fun r hne => afterCrc32_gpr_other hne,
    afterCrc32_pc_toNat, afterCrc32_flags .., fun a => by rw [afterCrc32_mem], afterCrc32_env ..⟩
  rw [r64_of_hi_eq_zero (by rw [afterCrc32_gpr_long64 hm]), afterCrc32_r32_dest]

/-- A step that goes on leaves memory, the flags and the parameters (10_state R28, 20_memory R66). -/
theorem step_frame {s t : State} (h : step s = .next t) : t.mem = s.mem ∧ t.flags = s.flags ∧ t.env = s.env := by
  obtain ⟨i, data, -, -, rfl⟩ := step_next h
  exact ⟨afterCrc32_mem .., afterCrc32_flags .., afterCrc32_env ..⟩

/-- A run that takes a step and goes on took one that went on, and runs on from there. -/
theorem run_succ_next {M : Host.Core} {k : Nat} {s t : M.State} (h : M.run (k + 1) s = .next t) :
    ∃ u, M.step s = .next u ∧ M.run k u = .next t := by
  rw [Host.Core.run] at h
  split at h
  · exact ⟨_, ‹_›, h⟩
  · cases h
  · cases h

/-- A run keeps what each of its steps keeps. -/
theorem run_frame {k : Nat} {s t : State} (h : Sys2Proof.core.run k s = .next t) :
    t.mem = s.mem ∧ t.flags = s.flags ∧ t.env = s.env := by
  induction k generalizing s with
  | zero =>
    obtain rfl : s = t := Host.Outcome.next.inj h
    exact ⟨rfl, rfl, rfl⟩
  | succ k ih =>
    obtain ⟨u, hstep, hrun⟩ := run_succ_next h
    obtain ⟨hmem, hflags, henv⟩ := step_frame hstep
    obtain ⟨hmem', hflags', henv'⟩ := ih hrun
    exact ⟨hmem'.trans hmem, hflags'.trans hflags, henv'.trans henv⟩

/-! ### The obligations -/

/-- Settles O59: by induction on the number of steps, each of which leaves memory, flags and parameters. -/
theorem runsNeverChangeMemory : Obligations.RunsNeverChangeMemory := by
  unfold Obligations.RunsNeverChangeMemory
  intro k s t h
  obtain ⟨hmem, hflags, henv⟩ := run_frame h
  exact ⟨fun a => by rw [hmem], hmem, hflags, henv⟩

/-- Settles O26: a readable source is read as the value of its bytes, and the instruction completes with it. -/
theorem memoryFormsComplete : Obligations.MemoryFormsComplete := by
  unfold Obligations.MemoryFormsComplete
  intro i s pas hex hrm hread
  exact completesWith_of_readSource hex ((readSource_not_register hrm).trans (readOperand_readableAt hread))

/-- Settles O37: the stored value's slices are the values of its bytes from an offset on. -/
theorem narrowReadsSeeSlicesOfAStoredValue : Obligations.NarrowReadsSeeSlicesOfAStoredValue := by
  unfold Obligations.NarrowReadsSeeSlicesOfAStoredValue
  rintro m a v rfl
  have hslice := leValue_slice ((List.range 4).map fun j => readByte m (a + j))
  refine ⟨fun k hk => ?_, fun k hk => ?_⟩
  · rw [ofNat_leValue_singleton]
    exact (leValue_slice_byte (by simp [hk])).symm
  · interval_cases k
    · exact (hslice 0 2).symm
    · exact (hslice 2 2).symm

/-- Settles O38: the slice of one byte is the value of that byte. -/
theorem operandBytesAreLittleEndian : Obligations.OperandBytesAreLittleEndian := by
  unfold Obligations.OperandBytesAreLittleEndian
  exact fun bs k b hb => leValue_slice_byte hb

/-- Settles O43: in real-address mode the segment check is the only one, and it fails past 0FFFFH or where barred. -/
theorem realModeOperandEndsAtFFFF : Obligations.RealModeOperandEndsAtFFFF := by
  unfold Obligations.RealModeOperandEndsAtFFFF
  intro i s hen hrm hm
  have hu := not_unaligned_real hm (operandSegment i s.env.ctx.mode) (effectiveAddress i s) (srcSizeOf i).bytes
  have ht (la : QWord) (code : Nat) : s.env.translate la ≠ .error code := by simp [translate_real hm]
  rw [← hm]
  refine ⟨fun hpast => ?_, fun hin hbar f hf => ?_⟩
  · exact exec_segmentFault hen hrm hu ht ((segmentBad_real hm).2 (.inl hpast))
  · obtain ⟨-, hbad⟩ := (applies_iff_segment hu ht).1 (applies_of_exec_fault hen hrm hf)
    exact ((segmentBad_real hm).1 hbad).elim (Nat.not_lt.2 hin) hbar

/-- Settles O45: an address with unequal upper bits is not canonical, and no other check can fail. -/
theorem nonCanonicalOperandFaults : Obligations.NonCanonicalOperandFaults := by
  unfold Obligations.NonCanonicalOperandFaults
  intro i s k hen hrm hm hpg hac hk hbad
  rw [← hm] at hbad ⊢
  refine exec_segmentFault hen hrm (by simp [Unaligned, hac]) (fun la code => by simp [translate_paging_off hpg])
    ((segmentBad_long64 hm).2 (.inl ⟨k, hk, ?_⟩))
  rcases hbad with hpast | ⟨j, hlo, hhi, hne⟩
  · exact .inl hpast
  · refine (Nat.lt_or_ge _ _).symm.imp_right fun hlt => ?_
    by_contra hcan
    refine hne (getLsbD_of_canonical ?_ hlo hhi)
    rw [BitVec.toNat_add, BitVec.toNat_ofNat, Nat.add_mod_mod, Nat.mod_eq_of_lt hlt]
    simpa using hcan

/-- Settles O56: after reset the window is fetched from distinct addresses, so the placed bytes stand at the pc. -/
theorem placedInstructionIsTheFirstToRun : Obligations.PlacedInstructionIsTheFirstToRun := by
  unfold Obligations.PlacedInstructionIsTheFirstToRun
  intro i hw
  have hfits : (encode i).length ≤ Config.maxInsnLen := length_encode i ▸ Instr.length_le_maxInsnLen hw
  have hcode : CodeAtPc (State.reset.withCode (encode i)) (encode i) :=
    codeAtPc_withCode reset_mem_wf (add_right_injective 0xFFFFFFF0) fun k hk => fetchAddr_reset (hk.trans_le hfits)
  exact codeAtThePcIsRun _ i hw hcode

/-- Settles O36: the sums of the model are those of the rule, modulo the address width. -/
theorem linearAddressIsBasePlusOffset : Obligations.LinearAddressIsBasePlusOffset := by
  unfold Obligations.LinearAddressIsBasePlusOffset
  exact linear_toNat

end Sys2Proof.Machine
end

section
/-! What decodes is an encoding (30_encoding R80, R106): each stage of the decoder takes the bytes that the encoder writes
for what it answers, so decoding drops no bit. -/

namespace Sys2Proof

/-! ### Operand 2 -/

theorem take8_some {bs rest : List Byte} {v : Byte} (h : take8 bs = some (v, rest)) : bs = v :: rest := by
  cases bs with
  | nil => cases h
  | cons b bs => cases h; rfl

/-- The fields `mod` of a memory operand are 00, 01 and 10 (30_encoding R92, R93). -/
theorem mod_eq_two {mod : BitVec 2} (h0 : mod ≠ 0) (h1 : mod ≠ 1) (h3 : mod ≠ 3) : mod = 2 := by
  revert mod; decide

/-- A 16-bit displacement stands under the field `mod` it is read by, and its bytes are those taken. -/
theorem takeDisp16_some {mod : BitVec 2} {bs rest : List Byte} {d : Disp16} (hm : mod ≠ 3)
    (h : takeDisp16 mod bs = some (d, rest)) : d.mod = mod ∧ bs = d.bytes ++ rest := by
  unfold takeDisp16 at h
  split_ifs at h with h0 h1
  · cases h; exact ⟨h0.symm, rfl⟩
  · obtain ⟨⟨v, bs'⟩, hv, hd⟩ := Option.map_eq_some_iff.1 h
    cases hd; exact ⟨h1.symm, take8_some hv⟩
  · obtain ⟨⟨v, bs'⟩, hv, hd⟩ := Option.map_eq_some_iff.1 h
    cases hd; exact ⟨(mod_eq_two h0 h1 hm).symm, take16_some hv⟩

/-- A 32-bit displacement stands under the field `mod` it is read by, and its bytes are those taken. -/
theorem takeDisp32_some {mod : BitVec 2} {bs rest : List Byte} {d : Disp32} (hm : mod ≠ 3)
    (h : takeDisp32 mod bs = some (d, rest)) : d.mod = mod ∧ bs = d.bytes ++ rest := by
  unfold takeDisp32 at h
  split_ifs at h with h0 h1
  · cases h; exact ⟨h0.symm, rfl⟩
  · obtain ⟨⟨v, bs'⟩, hv, hd⟩ := Option.map_eq_some_iff.1 h
    cases hd; exact ⟨h1.symm, take8_some hv⟩
  · obtain ⟨⟨v, bs'⟩, hv, hd⟩ := Option.map_eq_some_iff.1 h
    cases hd; exact ⟨(mod_eq_two h0 h1 hm).symm, take32_some hv⟩

/-- The fields `mod` and `r/m`, and the bytes `bs` after ModRM up to `rest`, are those the encoder writes for operand 2,
which has the shape of its address size. -/
structure Rm.EncodedBy (m : Rm) (a : AddrSize) (mod : BitVec 2) (code : BitVec 3) (bs rest : List Byte) : Prop where
  wellFormed : m.wellFormed a = true
  mod_eq     : m.mod = mod
  code_eq    : m.code = code
  bytes_eq   : bs = m.extra ++ rest

theorem takeRm16_some {mod : BitVec 2} {code : BitVec 3} {bs rest : List Byte} {m : Rm} (hm : mod ≠ 3)
    (h : takeRm16 mod code bs = some (m, rest)) : m.EncodedBy .a16 mod code bs rest := by
  unfold takeRm16 at h
  split_ifs at h with habs
  · obtain ⟨⟨v, bs'⟩, hv, hr⟩ := Option.map_eq_some_iff.1 h
    cases hr
    exact ⟨rfl, habs.1.symm, habs.2.symm, take16_some hv⟩
  · obtain ⟨⟨d, bs'⟩, hd, hr⟩ := Option.map_eq_some_iff.1 h
    cases hr
    obtain ⟨rfl, rfl⟩ := takeDisp16_some hm hd
    exact ⟨by simpa [Rm.wellFormed, imp_iff_not_or, or_comm] using habs, rfl, rfl, rfl⟩

theorem takeSib_some {a : AddrSize} {mod : BitVec 2} {bs rest : List Byte} {m : Rm} (ha : a ≠ .a16) (hm : mod ≠ 3)
    (h : takeSib mod bs = some (m, rest)) : m.EncodedBy a mod 4 bs rest := by
  cases bs with
  | nil => cases h
  | cons b bs =>
    have hb := modrm_of_fields b
    simp only [takeSib] at h
    split_ifs at h with hbase
    · obtain ⟨⟨v, bs'⟩, hv, hr⟩ := Option.map_eq_some_iff.1 h
      cases hr
      obtain rfl := take32_some hv
      rw [hbase.2] at hb
      exact ⟨by simpa [Rm.wellFormed] using ha, hbase.1.symm, rfl, by simp only [Rm.extra, hb]; rfl⟩
    · obtain ⟨⟨d, bs'⟩, hd, hr⟩ := Option.map_eq_some_iff.1 h
      cases hr
      obtain ⟨rfl, rfl⟩ := takeDisp32_some hm hd
      exact ⟨by simpa [Rm.wellFormed, ha, imp_iff_not_or, or_comm] using hbase, rfl, rfl,
        by simp only [Rm.extra, hb]; rfl⟩

theorem takeRm32_some {a : AddrSize} {mod : BitVec 2} {code : BitVec 3} {bs rest : List Byte} {m : Rm} (ha : a ≠ .a16)
    (hm : mod ≠ 3) (h : takeRm32 mod code bs = some (m, rest)) : m.EncodedBy a mod code bs rest := by
  unfold takeRm32 at h
  split_ifs at h with hsib hdisp
  · subst hsib
    exact takeSib_some ha hm h
  · obtain ⟨⟨v, bs'⟩, hv, hr⟩ := Option.map_eq_some_iff.1 h
    cases hr
    exact ⟨by simpa [Rm.wellFormed] using ha, hdisp.1.symm, hdisp.2.symm, take32_some hv⟩
  · obtain ⟨⟨d, bs'⟩, hd, hr⟩ := Option.map_eq_some_iff.1 h
    cases hr
    obtain ⟨rfl, rfl⟩ := takeDisp32_some hm hd
    have hbase : code ≠ 4#3 ∧ (code ≠ 5#3 ∨ d ≠ .absent) :=
      ⟨hsib, by simpa [imp_iff_not_or, or_comm] using hdisp⟩
    exact ⟨by simpa [Rm.wellFormed, ha] using hbase, rfl, rfl, rfl⟩

/-- Operand 2 as the decoder reads it is encoded by the fields and bytes it is read from (30_encoding R87, R92, R93). -/
theorem takeRm_some {a : AddrSize} {mod : BitVec 2} {code : BitVec 3} {bs rest : List Byte} {m : Rm}
    (h : takeRm a mod code bs = some (m, rest)) : m.EncodedBy a mod code bs rest := by
  by_cases hm : mod = 3
  · subst hm
    cases h
    exact ⟨rfl, rfl, rfl, rfl⟩
  by_cases ha : a = .a16
  · subst ha
    exact takeRm16_some hm (by simpa only [takeRm, if_neg hm] using h)
  · exact takeRm32_some ha hm (takeRm_of_ne_a16 ha hm code bs ▸ h)

/-! ### The bytes before ModRM -/

theorem Instr.rexBytes_eq (i : Instr) : i.rexBytes = i.rex.toList.map Rex.byte := by
  unfold Instr.rexBytes
  cases i.rex <;> rfl

theorem scanRex_eq (m : Mode) (bs : List Byte) : bs = (scanRex m bs).1.toList.map Rex.byte ++ (scanRex m bs).2 := by
  cases bs with
  | nil => rfl
  | cons b bs =>
    by_cases h : m = .long64 ∧ isRexByte b = true
    · simp [scanRex, h, byte_rexOfByte b h.2]
    · simp [scanRex, h]

theorem takeOpcode_ok {rexSeen wide : Bool} {m : Mode} {bs rest : List Byte}
    (h : takeOpcode rexSeen m bs = .ok (wide, rest)) :
    bs = 0x0F :: 0x38 :: (if wide then 0xF1 else 0xF0) :: rest := by
  match bs with
  | [] => cases h
  | [b] => simp only [takeOpcode] at h; split_ifs at h
  | [b, c] => simp only [takeOpcode] at h; split_ifs at h
  | b :: c :: d :: ds =>
    simp only [takeOpcode] at h
    split_ifs at h with hb hc hf0 hf1
    · cases h; simp_all
    · cases h; simp_all

/-! ### The whole -/

theorem osz_ne_s64 (c : Ctx) (has66 : Bool) : osz c has66 false ≠ .s64 := by
  unfold osz
  cases c.operandDefault <;> cases has66 <;> split_ifs <;> simp_all

/-- The row selected holds, since a REX byte is recorded in `Long64` alone (30_encoding R84, R104). -/
theorem selectForm_rowHolds {c : Ctx} {rex : Option Rex} (h : rex ≠ none → c.mode = .long64) (ps : List LegacyPrefix)
    (wide : Bool) (reg : BitVec 3) (rm : Rm) : (selectForm c ps rex wide reg rm).rowHolds c = true := by
  match wide, rex with
  | false, none => rfl
  | false, some ⟨false, x⟩ => simpa [selectForm, Instr.rowHolds] using h
  | false, some ⟨true, x⟩ => simpa [selectForm, Instr.rowHolds] using h
  | true, some ⟨true, x⟩ => simpa [selectForm, Instr.rowHolds] using h
  | true, none | true, some ⟨false, _⟩ =>
    cases hz : osz c (ps.contains .opSize) false with
    | s64 => exact absurd hz (osz_ne_s64 c _)
    | s16 | s32 => simp [selectForm, hz, Instr.rowHolds, Instr.has66, Instr.prefixes, h, -List.contains_eq_mem]

/-- What decodes is a well-formed instruction, and the bytes are its encoding and the rest (30_encoding R80, R106). -/
theorem wellFormed_encode_of_decode {c : Ctx} {bytes rest : List Byte} {i : Instr} (h : decode c bytes = .ok (i, rest)) :
    i.wellFormed c = true ∧ bytes = encode i ++ rest := by
  obtain ⟨wide, modrm, bs, rm, hop, hrm, hpfx, rfl⟩ := decode_ok h
  obtain ⟨hps, hrex, hwide, hreg, hrm'⟩ := selectForm_parts c (scanPrefixes bytes).1
    (scanRex c.mode (scanPrefixes bytes).2).1 wide (modrm.extractLsb' 3 3) rm
  obtain ⟨hwf, hmod, hcode, hbs⟩ := takeRm_some hrm
  have hlong : (scanRex c.mode (scanPrefixes bytes).2).1 ≠ none → c.mode = .long64 := fun hr => by
    by_contra hm
    exact hr (by rw [scanRex_none hm])
  refine ⟨Instr.wellFormed_iff.2 ⟨by rwa [hps], selectForm_rowHolds hlong .., ?_⟩, ?_⟩
  · rwa [Instr.has67, hps, hrm']
  · rw [encode_append, Instr.rexBytes_eq, hps, hrex, hwide, hreg, hrm', hmod, hcode, modrm_of_fields, ← hbs,
      ← takeOpcode_ok hop, ← scanRex_eq, ← scanPrefixes_eq]

end Sys2Proof
end

section
/-! The statements on the encoding: the round trip between bytes and instructions (30_encoding R80, R106), and what it says
of the length, the row, the size attributes and the prefixes of what decodes (R83 to R97, R104). -/

namespace Sys2Proof.Machine

open Sys2Proof.Safety

/-! ### Size attributes -/

/-- The decoder's address size is R91's. -/
theorem addressBits_eq (c : Ctx) (has67 : Bool) :
    addressBits c.mode c.defaultAddressSize has67 = match asz c has67 with | .a16 => 16 | .a32 => 32 | .a64 => 64 := by
  obtain ⟨m, d, e⟩ := c
  cases m <;> cases e <;> cases has67 <;> simp [addressBits, asz, Ctx.addressDefault]

theorem asz_eq_a16_iff (c : Ctx) (has67 : Bool) :
    asz c has67 = .a16 ↔ addressBits c.mode c.defaultAddressSize has67 = 16 := by
  rw [addressBits_eq]
  cases asz c has67 <;> simp

/-- REX.W is set only where REX prefixes exist (30_encoding R84). -/
theorem rexW_eq_false {c : Ctx} {i : Instr} (h : i.wellFormed c = true) (hm : c.mode ≠ .long64) : i.rexW = false := by
  have hrex : i.rex = none := by_contra fun hr => hm (Instr.rowHolds_rex (Instr.wellFormed_iff.1 h).2.1 hr)
  simp [Instr.rexW, hrex]

/-- The form table (30_encoding R104): the row of a well-formed instruction has the source width its fields select. -/
theorem srcSizeOf_bits {c : Ctx} {i : Instr} (h : i.wellFormed c = true) :
    (srcSizeOf i).bits
      = if i.wide then operandBits c.mode c.defaultOperandSize i.has66 i.rexW else 8 := by
  rw [operandBits_eq (rexW_eq_false h)]
  have hrow := (Instr.wellFormed_iff.1 h).2.1
  cases i with
  | crc32R32Rm8 | crc32R32Rm8Rex | crc32R64Rm8 => rfl
  | crc32R32Rm16 _ x | crc32R32Rm32 _ x =>
    have hsize := of_decide_eq_true (Bool.and_eq_true_iff.1 hrow).2
    cases x <;> simp [srcSizeOf, Instr.wide, Instr.rexW, Instr.rex, hsize]
  | crc32R64Rm64 =>
    have hlong := of_decide_eq_true hrow
    simp [srcSizeOf, Instr.wide, Instr.rexW, Instr.rex, osz, hlong]

theorem destSizeOf_eq (i : Instr) : destSizeOf i = if i.rexW then .r64 else .r32 := by
  cases i with
  | crc32R32Rm16 _ x | crc32R32Rm32 _ x => cases x <;> rfl
  | _ => rfl

/-- A memory operand of a well-formed instruction is a row of the 16-bit table exactly at address size 16. -/
theorem isAddress16_iff {a : AddrSize} {m : Rm} (h : m.wellFormed a = true) (hm : ¬ IsRegister m) :
    IsAddress16 m ↔ a = .a16 := by
  cases m with
  | reg => exact absurd trivial hm
  | abs16 | ind16 => simp_all [Rm.wellFormed, IsAddress16]
  | disp32 | base | sib | sibNoBase => simp_all [Rm.wellFormed, IsAddress16]

/-! ### The discipline of the legacy prefixes -/

/-- What the discipline of R83 counts. -/
theorem prefixProblem_eq_none_iff {ps : List LegacyPrefix} :
    prefixProblem ps = none ↔
      ps.count .repne = 1 ∧ ps.count .lock ≤ 1 ∧ ps.count .opSize ≤ 1 ∧ ps.count .addrSize ≤ 1
      ∧ ps.countP LegacyPrefix.isSeg ≤ 1 := by
  unfold prefixProblem
  simp only [Bool.or_eq_true, decide_eq_true_eq]
  split_ifs <;> simp only [false_iff, true_iff] <;> omega

theorem byte_ne_F3 (p : LegacyPrefix) : p.byte ≠ 0xF3 := by
  intro h
  simpa [h, prefixOfByte] using prefixOfByte_byte p

/-- The first bytes of an encoding are those of its legacy prefixes. -/
theorem encode_getElem?_prefix {i : Instr} {k : Nat} (hk : k < i.prefixes.length) (rest : List Byte) :
    (encode i ++ rest)[k]? = some i.prefixes[k].byte := by
  rw [encode_append, List.getElem?_append_left (by simpa using hk)]
  simp [hk]

/-! ### The obligations -/

/-- Settles O8: each stage of the decoder reads back the bytes the encoder wrote for it. -/
theorem decodeOfEncodeIsTheInstruction : Obligations.DecodeOfEncodeIsTheInstruction := by
  unfold Obligations.DecodeOfEncodeIsTheInstruction
  exact fun c i rest hw => decode_encode_append hw rest

/-- Settles O9: each stage of the decoder takes the bytes the encoder writes for what it answers. -/
theorem decodedBytesAreTheEncoding : Obligations.DecodedBytesAreTheEncoding := by
  unfold Obligations.DecodedBytesAreTheEncoding
  exact fun c bytes rest i hd => wellFormed_encode_of_decode hd

/-- Settles O10: the encoder writes what the length rule counts; the discipline bounds the prefixes, and an instruction
with one of each group, REX, SIB and a disp32 attains the upper bound. -/
theorem encodingHasFiveToFifteenBytes : Obligations.EncodingHasFiveToFifteenBytes := by
  unfold Obligations.EncodingHasFiveToFifteenBytes
  refine ⟨fun c i hw => ⟨?_, length_encode i, ?_, Instr.length_le_maxInsnLen hw⟩, ?_, ?_⟩
  · rw [length_encode, Instr.length]
    cases i.rm with
    | reg | abs16 | disp32 | sibNoBase => rfl
    | ind16 _ d => cases d <;> rfl
    | base _ d => cases d <;> rfl
    | sib _ _ _ d => cases d <;> rfl
  · have hone := (prefixProblem_eq_none_iff.1 (Instr.wellFormed_iff.1 hw).1).1
    have hpos := List.count_le_length (a := LegacyPrefix.repne) (l := i.prefixes)
    rw [Instr.length]
    omega
  · exact ⟨⟨.long64, .bits32, .bits32⟩, .crc32R32Rm8 [.repne] 0 (.reg 0), by decide, by decide⟩
  · exact ⟨⟨.long64, .bits32, .bits32⟩,
      .crc32R64Rm64 [.repne, .lock, .opSize, .addrSize, .seg .fs] ⟨false, false, false⟩ 0 (.sib 0 0 0 (.disp32 0)),
      by decide, by decide⟩

/-- Settles O11: what decodes is well formed, and the row of a well-formed instruction is the one its fields select. -/
theorem rowIsSelectedByTheFields : Obligations.RowIsSelectedByTheFields := by
  unfold Obligations.RowIsSelectedByTheFields
  intro c bytes rest i hd
  exact ⟨srcSizeOf_bits (wellFormed_encode_of_decode hd).1, destSizeOf_eq i⟩

/-- Settles O12: what decodes is well formed, so operand 2 has the shape of its address size, which is R91's. -/
theorem addressSizeSelectsTheTable : Obligations.AddressSizeSelectsTheTable := by
  unfold Obligations.AddressSizeSelectsTheTable
  refine ⟨fun c bytes rest i hd hm => ?_, addressBits_eq⟩
  obtain ⟨-, -, hrm⟩ := Instr.wellFormed_iff.1 (wellFormed_encode_of_decode hd).1
  exact (isAddress16_iff hrm hm).trans (asz_eq_a16_iff c _)

/-- Settles O13: a row with a REX byte holds in `Long64` alone, so elsewhere such an instruction is not well formed. -/
theorem noRexOutsideLong64 : Obligations.NoRexOutsideLong64 := by
  unfold Obligations.NoRexOutsideLong64
  have hnot {c : Ctx} {i : Instr} (hm : c.mode ≠ .long64) (hr : i.rex ≠ none) : i.wellFormed c ≠ true :=
    fun hw => hm (Instr.rowHolds_rex (Instr.wellFormed_iff.1 hw).2.1 hr)
  refine ⟨fun c bytes rest i hm hd => ?_, fun i s hm hr => ?_⟩
  · by_contra hr
    exact hnot hm hr (wellFormed_encode_of_decode hd).1
  · simp [exec_eq, execCrc32, hnot hm hr]

/-- Settles O14: what decodes keeps the discipline, and its first bytes are those of its prefixes, none of them F3. -/
theorem decodedPrefixesKeepTheDiscipline : Obligations.DecodedPrefixesKeepTheDiscipline := by
  unfold Obligations.DecodedPrefixesKeepTheDiscipline
  intro c bytes rest i hd
  obtain ⟨hw, rfl⟩ := wellFormed_encode_of_decode hd
  obtain ⟨hrepne, hlock, hop, haddr, hseg⟩ := prefixProblem_eq_none_iff.1 (Instr.wellFormed_iff.1 hw).1
  refine ⟨hrepne, hlock, hop, haddr, hseg, fun k b hk hb => ?_⟩
  rw [encode_getElem?_prefix hk] at hb
  cases hb
  exact byte_ne_F3 _

/-- Settles O16: the decoder evaluates each of the six words. -/
theorem wordsOfTheSpecDecode : Obligations.WordsOfTheSpecDecode := by
  unfold Obligations.WordsOfTheSpecDecode
  decide

end Sys2Proof.Machine
end

section
/-! The legacy prefixes of an instruction: one set of them has one meaning in any order (30_encoding R83), and a segment
override replaces the default segment (R96). -/

namespace Sys2Proof.Machine

open Sys2Proof.Safety

/-! ### The segment override -/

/-- Under the discipline of R83 the override is the one of the prefixes that names a segment, wherever it stands. -/
theorem segOverride_eq_some_iff {ps : List LegacyPrefix} (h : ps.countP LegacyPrefix.isSeg ≤ 1) {o : SegReg} :
    segOverride ps = some o ↔ .seg o ∈ ps := by
  induction ps with
  | nil => simp [segOverride]
  | cons p ps ih =>
    cases p with
    | seg q =>
      have hnone : ∀ p ∈ ps, p.isSeg = false := by simpa [LegacyPrefix.isSeg, List.countP_cons] using h
      have ho : .seg o ∉ ps := fun hmem => by cases hnone _ hmem
      simp [segOverride, ho, eq_comm]
    | repne | lock | opSize | addrSize =>
      simpa [segOverride] using ih (by simpa [LegacyPrefix.isSeg, List.countP_cons] using h)

theorem countP_isSeg_le_one {c : Ctx} {i : Instr} (h : i.wellFormed c = true) :
    i.prefixes.countP LegacyPrefix.isSeg ≤ 1 := by
  obtain ⟨-, -, -, -, hseg⟩ := prefixProblem_eq_none_iff.1 (Instr.wellFormed_iff.1 h).1
  exact hseg

theorem segOverride_eq_of_perm {ps qs : List LegacyPrefix} (h : ps.Perm qs) (hq : qs.countP LegacyPrefix.isSeg ≤ 1) :
    segOverride ps = segOverride qs := by
  refine Option.ext fun o => ?_
  rw [segOverride_eq_some_iff (by rwa [h.countP_eq]), segOverride_eq_some_iff hq, h.mem_iff]

theorem prefixProblem_eq_of_perm {ps qs : List LegacyPrefix} (h : ps.Perm qs) : prefixProblem ps = prefixProblem qs := by
  simp only [prefixProblem, h.count_eq, h.countP_eq]

/-! ### Other prefixes on the same instruction -/

section
variable (ps : List LegacyPrefix) (i : Instr)

@[simp] theorem prefixes_withPrefixes : (withPrefixes ps i).prefixes = ps := by cases i <;> rfl
@[simp] theorem rex_withPrefixes : (withPrefixes ps i).rex = i.rex := by cases i <;> rfl
@[simp] theorem reg_withPrefixes : (withPrefixes ps i).reg = i.reg := by cases i <;> rfl
@[simp] theorem rm_withPrefixes : (withPrefixes ps i).rm = i.rm := by cases i <;> rfl
@[simp] theorem srcSizeOf_withPrefixes : srcSizeOf (withPrefixes ps i) = srcSizeOf i := by cases i <;> rfl
@[simp] theorem destSizeOf_withPrefixes : destSizeOf (withPrefixes ps i) = destSizeOf i := by cases i <;> rfl
@[simp] theorem rexBits_withPrefixes : (withPrefixes ps i).rexBits = i.rexBits := by simp [Instr.rexBits]
@[simp] theorem destReg_withPrefixes : destReg (withPrefixes ps i) = destReg i := by simp [destReg]
end

section
variable {ps : List LegacyPrefix} {i : Instr} (h : ps.Perm i.prefixes)
include h

theorem length_withPrefixes : (withPrefixes ps i).length = i.length := by
  simp [Instr.length, h.length_eq]

theorem wellFormed_withPrefixes (c : Ctx) : (withPrefixes ps i).wellFormed c = i.wellFormed c := by
  have hrow : (withPrefixes ps i).rowHolds c = i.rowHolds c := by
    have h66 : ps.contains .opSize = i.prefixes.contains .opSize := h.contains_eq
    cases i with
    | crc32R32Rm16 | crc32R32Rm32 =>
      rw [withPrefixes, Instr.rowHolds, Instr.rowHolds, Instr.has66, Instr.has66, Instr.prefixes, h66]
    | crc32R32Rm8 | crc32R32Rm8Rex | crc32R64Rm8 | crc32R64Rm64 => rfl
  simp only [Instr.wellFormed, hrow, Instr.has67, prefixes_withPrefixes, rm_withPrefixes, prefixProblem_eq_of_perm h,
    h.contains_eq]

theorem hasLock_withPrefixes : (withPrefixes ps i).hasLock = i.hasLock := by
  rw [Instr.hasLock, Instr.hasLock, prefixes_withPrefixes, h.contains_eq]

theorem effectiveAddress_withPrefixes (s : State) : effectiveAddress (withPrefixes ps i) s = effectiveAddress i s := by
  simp only [effectiveAddress, Instr.has67, prefixes_withPrefixes, rm_withPrefixes, rexBits_withPrefixes,
    length_withPrefixes h, h.contains_eq]

theorem operandSegment_withPrefixes (hseg : i.prefixes.countP LegacyPrefix.isSeg ≤ 1) (m : Mode) :
    operandSegment (withPrefixes ps i) m = operandSegment i m := by
  simp only [operandSegment, prefixes_withPrefixes, rm_withPrefixes, rexBits_withPrefixes, segOverride_eq_of_perm h hseg]

theorem readSource_withPrefixes (hseg : i.prefixes.countP LegacyPrefix.isSeg ≤ 1) (sz : SrcSize) (s : State) :
    readSource sz (withPrefixes ps i) s = readSource sz i s := by
  have hreg (code : BitVec 3) : regSource sz (withPrefixes ps i) code s = regSource sz i code s := by
    simp only [regSource, rex_withPrefixes, rexBits_withPrefixes]
  simp only [readSource, rm_withPrefixes, hreg, operandSegment_withPrefixes h hseg, effectiveAddress_withPrefixes h]

theorem afterCrc32_withPrefixes (sz : SrcSize) (dw : DestSize) (data : BitVec sz.bits) (s : State) :
    afterCrc32 sz dw (withPrefixes ps i) data s = afterCrc32 sz dw i data s := by
  simp only [afterCrc32, destReg_withPrefixes, length_withPrefixes h]
end

/-! ### The default segment -/

theorem regNum_eq_four_or_five (b : Bool) (code : BitVec 3) :
    (regNum b code = 4 ∨ regNum b code = 5) ↔ (code = 4 ∨ code = 5) ∧ b = false := by
  revert b code; decide

/-! ### The obligations -/

/-- Settles O15: a well-formed instruction has at most one override, so an order of its prefixes is no part of what its
checks, its operands or its length read. -/
theorem prefixOrderDoesNotMatter : Obligations.PrefixOrderDoesNotMatter := by
  unfold Obligations.PrefixOrderDoesNotMatter
  intro i ps s h
  rw [exec_eq, exec_eq, srcSizeOf_withPrefixes, destSizeOf_withPrefixes, execCrc32, execCrc32,
    wellFormed_withPrefixes h]
  by_cases hw : i.wellFormed s.env.ctx = true
  · rw [hasLock_withPrefixes h, readSource_withPrefixes h (countP_isSeg_le_one hw), length_withPrefixes h]
    simp only [afterCrc32_withPrefixes h]
  · simp [hw]

/-- Settles O35: the override is the one of the prefixes that names a segment, and the default is read off operand 2. -/
theorem segmentOfTheOperand : Obligations.SegmentOfTheOperand := by
  unfold Obligations.SegmentOfTheOperand
  intro i c hw dflt
  have hover {o : SegReg} := segOverride_eq_some_iff (countP_isSeg_le_one hw) (o := o)
  have hdflt : defaultSegment i.rexBits i.rm = dflt := by
    simp only [dflt]
    cases i.rm with
    | base | sib => simp only [defaultSegment, regNum_eq_four_or_five]
    | reg | abs16 | ind16 | disp32 | sibNoBase => rfl
  refine ⟨fun hnone => ?_, fun o ho => ?_⟩
  · have h : segOverride i.prefixes = none := Option.eq_none_iff_forall_ne_some.2 fun o ho => hnone o (hover.1 ho)
    simp only [operandSegment, h, hdflt]
  · simp only [operandSegment, hover.2 ho, hdflt]

end Sys2Proof.Machine
end

section
/-! The effective address (30_encoding R91 to R95): every part of the sum is the residue of an integer at the address width,
and so is their sum. -/

namespace Sys2Proof.Machine

open Sys2Proof.Safety

/-! ### Residues -/

theorem toNat_ofInt_eq_emod (w : Nat) (x : Int) : ((BitVec.ofInt w x).toNat : Int) = x % 2 ^ w := by
  rw [BitVec.toNat_ofInt, Int.toNat_of_nonneg (Int.emod_nonneg _ (by positivity))]
  push_cast
  rfl

theorem setWidth_ofInt {v w : Nat} (h : w ≤ v) (x : Int) : (BitVec.ofInt v x).setWidth w = BitVec.ofInt w x := by
  apply BitVec.eq_of_toNat_eq
  zify
  rw [BitVec.toNat_setWidth, toNat_ofInt_eq_emod]
  push_cast
  rw [toNat_ofInt_eq_emod, Int.emod_emod_of_dvd _ (pow_dvd_pow 2 h)]

theorem shiftLeft_ofInt (w : Nat) (x : Int) (k : Nat) : BitVec.ofInt w x <<< k = BitVec.ofInt w (x * 2 ^ k) := by
  have h2 : BitVec.twoPow w k = BitVec.ofInt w (2 ^ k : Nat) := by
    rw [BitVec.ofInt_natCast]
    exact BitVec.eq_of_toNat_eq (by rw [BitVec.toNat_twoPow, BitVec.toNat_ofNat])
  rw [BitVec.shiftLeft_eq_mul_twoPow, h2, ← BitVec.ofInt_mul]
  push_cast
  rfl

/-! ### Registers and displacements -/

/-- The function reads, at width `w`, the low bits of the registers of the state. -/
def ReadsRegs (s : State) {w : Nat} (reg : RegNum → BitVec w) : Prop :=
  ∀ r, reg r = BitVec.ofInt w (s.r64 r).toNat

theorem readsRegs_r64 (s : State) : ReadsRegs s s.r64 := fun r => by
  rw [BitVec.ofInt_natCast, BitVec.ofNat_toNat, BitVec.setWidth_eq]

theorem readsRegs_r32 (s : State) : ReadsRegs s s.r32 := fun r => by
  rw [BitVec.ofInt_natCast, BitVec.ofNat_toNat, BitVec.setWidth_eq_extractLsb' (by decide), r32_eq_slice]

theorem readsRegs_r16 (s : State) : ReadsRegs s s.r16 := fun r => by
  rw [BitVec.ofInt_natCast, BitVec.ofNat_toNat, BitVec.setWidth_eq_extractLsb' (by decide)]
  exact lo_slice_eq s r (by decide)

/-- A 16-bit displacement as R92 adds it. -/
def disp16Int : Disp16 → Int
  | .absent   => 0
  | .disp8 v  => v.toInt
  | .disp16 v => v.toNat

/-- A displacement as R93 and R94 add it. -/
def disp32Int : Disp32 → Int
  | .absent   => 0
  | .disp8 v  => v.toInt
  | .disp32 v => v.toInt

theorem disp16Value_eq (d : Disp16) : disp16Value d = BitVec.ofInt 16 (disp16Int d) := by
  cases d with
  | absent => rfl
  | disp8 v => rfl
  | disp16 v => simp [disp16Value, disp16Int]

theorem disp32Value_eq (w : Nat) (d : Disp32) : disp32Value w d = BitVec.ofInt w (disp32Int d) := by
  cases d with
  | absent => rfl
  | disp8 v => rfl
  | disp32 v => rfl

/-! ### The 16-bit table -/

/-- The registers of a row of the 16-bit table, added without a bound (30_encoding R92). -/
def sum16 (rm : BitVec 3) (s : State) : Nat :=
  match rm.toNat with
  | 0 => (s.r64 3).toNat + (s.r64 6).toNat
  | 1 => (s.r64 3).toNat + (s.r64 7).toNat
  | 2 => (s.r64 5).toNat + (s.r64 6).toNat
  | 3 => (s.r64 5).toNat + (s.r64 7).toNat
  | 4 => (s.r64 6).toNat
  | 5 => (s.r64 7).toNat
  | 6 => (s.r64 5).toNat
  | _ => (s.r64 3).toNat

theorem base16_eq (rm : BitVec 3) (s : State) : base16 rm s = BitVec.ofInt 16 (sum16 rm s) := by
  unfold base16 sum16
  match rm.toNat with
  | 0 | 1 | 2 | 3 => simp only [readsRegs_r16 s _, Nat.cast_add, BitVec.ofInt_add]
  | 4 | 5 | 6 | _ + 7 => exact readsRegs_r16 s _

theorem effectiveAddress_ind16 {i : Instr} {s : State} {rm : BitVec 3} {d : Disp16} (h : i.rm = .ind16 rm d) :
    ((effectiveAddress i s).toNat : Int) = (sum16 rm s + disp16Int d) % 2 ^ 16 := by
  simp only [effectiveAddress, h]
  rw [base16_eq, disp16Value_eq, ← BitVec.ofInt_add, BitVec.toNat_setWidth_of_le (by decide), toNat_ofInt_eq_emod]

/-! ### The 32- and 64-bit forms -/

/-- The scaled index of a SIB byte: register 4 means no index (30_encoding R93). -/
def indexSum (s : State) (r : RegNum) (scale : BitVec 2) : Nat :=
  if r = 4 then 0 else (s.r64 r).toNat * 2 ^ scale.toNat

section
variable {s : State} {w : Nat} {reg : RegNum → BitVec w} (h : ReadsRegs s reg) (x : RexBits) (m : Mode) (pc : QWord)
include h

theorem scaledIndex_eq (r : RegNum) (sc : BitVec 2) : scaledIndex reg r sc = BitVec.ofInt w (indexSum s r sc) := by
  unfold scaledIndex indexSum
  split_ifs
  · rfl
  · rw [h r, shiftLeft_ofInt]
    push_cast
    rfl

theorem wideAddress_base (rm : BitVec 3) (d : Disp32) :
    wideAddress reg x m pc (.base rm d) = BitVec.ofInt w ((s.r64 (numberOf x.b rm)).toNat + disp32Int d) := by
  rw [wideAddress, h, disp32Value_eq, ← BitVec.ofInt_add, regNum_eq]

theorem wideAddress_sib (sc : BitVec 2) (ix b : BitVec 3) (d : Disp32) :
    wideAddress reg x m pc (.sib sc ix b d)
      = BitVec.ofInt w ((s.r64 (numberOf x.b b)).toNat + indexSum s (numberOf x.x ix) sc + disp32Int d) := by
  rw [wideAddress, h, scaledIndex_eq h, disp32Value_eq, ← BitVec.ofInt_add, ← BitVec.ofInt_add, regNum_eq, regNum_eq]

theorem wideAddress_sibNoBase (sc : BitVec 2) (ix : BitVec 3) (d : DWord) :
    wideAddress reg x m pc (.sibNoBase sc ix d) = BitVec.ofInt w (indexSum s (numberOf x.x ix) sc + d.toInt) := by
  rw [wideAddress, scaledIndex_eq h, BitVec.signExtend, ← BitVec.ofInt_add, regNum_eq]
end

/-- A disp32 alone in `Long64` is added to the address of the next instruction (30_encoding R94). -/
theorem wideAddress_disp32_long64 {w : Nat} (hw : w ≤ 64) (reg : RegNum → BitVec w) (x : RexBits) (s : State) (n : Nat)
    (d : DWord) :
    wideAddress reg x .long64 (s.nextPc n) (.disp32 d) = BitVec.ofInt w (s.pc.toNat + n + d.toInt) := by
  have hpc : s.nextPc n = BitVec.ofInt 64 (s.pc.toNat + n) := by
    rw [BitVec.ofInt_add, BitVec.ofInt_natCast, BitVec.ofInt_natCast, BitVec.ofNat_toNat, BitVec.setWidth_eq]
    rfl
  rw [wideAddress, if_pos rfl, hpc, BitVec.signExtend, ← BitVec.ofInt_add, setWidth_ofInt hw]

/-- A sum of the 32- or 64-bit table, known at every width, is the effective address modulo the address size of R91. -/
theorem effectiveAddress_wide {i : Instr} {s : State} {x : Int} (hreg : ¬ IsRegister i.rm) (h16 : ¬ IsAddress16 i.rm)
    (ha : asz s.env.ctx i.has67 ≠ .a16)
    (h : ∀ {w : Nat} {reg : RegNum → BitVec w}, w ≤ 64 → ReadsRegs s reg →
      wideAddress reg i.rexBits s.env.ctx.mode (s.nextPc i.length) i.rm = BitVec.ofInt w x) :
    ((effectiveAddress i s).toNat : Int)
      = x % 2 ^ addressBits s.env.ctx.mode s.env.ctx.defaultAddressSize i.has67 := by
  rw [addressBits_eq]
  unfold effectiveAddress
  split
  · simp_all [IsRegister]
  · simp_all [IsAddress16]
  · simp_all [IsAddress16]
  · cases hz : asz s.env.ctx i.has67 with
    | a16 => exact absurd hz ha
    | a32 =>
      show (((wideAddress s.r32 _ _ _ _).setWidth 64).toNat : Int) = x % 2 ^ 32
      rw [h (by decide) (readsRegs_r32 s), BitVec.toNat_setWidth_of_le (by decide), toNat_ofInt_eq_emod]
    | a64 =>
      show ((wideAddress s.r64 _ _ _ _).toNat : Int) = x % 2 ^ 64
      rw [h (by decide) (readsRegs_r64 s), toNat_ofInt_eq_emod]

/-- The address size of a well-formed instruction whose operand is no row of the 16-bit table is not 16. -/
theorem asz_ne_a16 {c : Ctx} {i : Instr} (h : i.wellFormed c = true) (hreg : ¬ IsRegister i.rm)
    (h16 : ¬ IsAddress16 i.rm) : asz c i.has67 ≠ .a16 :=
  fun ha => h16 ((isAddress16_iff (Instr.wellFormed_iff.1 h).2.2 hreg).2 ha)

/-! ### The obligations -/

/-- Settles O32: the row's registers and the displacement are residues modulo 2^16. -/
theorem address16IsTheTable : Obligations.Address16IsTheTable := by
  unfold Obligations.Address16IsTheTable
  intro i s rm d h
  exact effectiveAddress_ind16 h

/-- Settles O33: base, index and displacement are residues modulo the address size. -/
theorem wideAddressIsBaseIndexDisplacement : Obligations.WideAddressIsBaseIndexDisplacement := by
  unfold Obligations.WideAddressIsBaseIndexDisplacement
  rintro i s w hw rfl
  refine ⟨fun rm d h => ?_, fun sc ix b d h => ?_, fun sc ix d h => ?_⟩
  all_goals
    have hreg : ¬ IsRegister i.rm := by simp [h, IsRegister]
    have h16 : ¬ IsAddress16 i.rm := by simp [h, IsAddress16]
    refine effectiveAddress_wide hreg h16 (asz_ne_a16 hw hreg h16) fun _ hregs => ?_
    rw [h]
  · exact wideAddress_base hregs ..
  · exact wideAddress_sib hregs ..
  · exact wideAddress_sibNoBase hregs ..

/-- Settles O34: in `Long64` the sum with the next instruction's address is taken modulo the address size; elsewhere the
disp32 is the 32-bit address. -/
theorem displacementAloneIsRipRelativeInLong64 : Obligations.DisplacementAloneIsRipRelativeInLong64 := by
  unfold Obligations.DisplacementAloneIsRipRelativeInLong64
  intro i s
  refine ⟨fun d h hm => ?_, fun d h hm => ?_, fun d h => ?_⟩
  · have ha : asz s.env.ctx i.has67 ≠ .a16 := by
      rw [Ne, asz_eq_a16_iff, hm]
      cases i.has67 <;> simp [addressBits]
    have hbits : addressBits s.env.ctx.mode s.env.ctx.defaultAddressSize i.has67
        = if LegacyPrefix.addrSize ∈ i.prefixes then 32 else 64 := by
      simp [hm, addressBits, Instr.has67]
    rw [← hbits]
    refine effectiveAddress_wide (by simp [h, IsRegister]) (by simp [h, IsAddress16]) ha fun hw _ => ?_
    rw [h, hm]
    exact wideAddress_disp32_long64 hw ..
  · have h32 : effectiveAddress i s = d.setWidth 64 := by
      simp only [effectiveAddress, h, wideAddress, if_neg hm, BitVec.signExtend_eq]
      cases hz : asz s.env.ctx i.has67 with
      | a64 => exact absurd hz (asz_ne_a64 hm _)
      | a16 | a32 => rfl
    rw [h32, BitVec.toNat_setWidth_of_le (by decide)]
  · simp only [effectiveAddress, h]
    exact BitVec.toNat_setWidth_of_le (by decide)

end Sys2Proof.Machine
end

section
/-! The intrinsics as the new destination values of their forms (30_encoding R108). -/

namespace Sys2Proof.Machine

open Sys2Proof.Safety

/-- The register that a source field names under a REX byte that may be absent (30_encoding R89). -/
theorem regNum_rexBits_b {i : Instr} {x : Option RexBits} (h : i.rex = x.map (Rex.mk false)) (code : BitVec 3) :
    regNum i.rexBits.b code = numberOf (bitB x) code := by
  rw [regNum_eq, Instr.rexBits, h]
  cases x <;> rfl

/-- The double word the 64-bit intrinsic takes of its first operand is the register's low half. -/
theorem setWidth_r64 (s : State) (r : RegNum) : (s.r64 r).setWidth 32 = s.r32 r := by
  rw [BitVec.setWidth_eq_extractLsb' (by decide), r32_eq_slice]

/-- Settles O30: the step of a completed instruction is its intrinsic's, on the register source. -/
theorem intrinsicsGiveTheNewDestination : Obligations.IntrinsicsGiveTheNewDestination := by
  unfold Obligations.IntrinsicsGiveTheNewDestination
  intro i s t code hrm hex
  rw [exec_eq, execCrc32_next] at hex
  obtain ⟨-, -, -, -, data, hdata, rfl⟩ := hex
  rw [readSource_reg hrm] at hdata
  cases hdata
  cases i with
  | crc32R32Rm8 | crc32R32Rm8Rex | crc32R64Rm8 => exact afterCrc32_r32_dest ..
  | crc32R32Rm16 p x r m =>
    have hsrc := regNum_rexBits_b (i := .crc32R32Rm16 p x r m) rfl code
    exact (afterCrc32_r32_dest ..).trans (by rw [← hsrc]; rfl)
  | crc32R32Rm32 p x r m =>
    have hsrc := regNum_rexBits_b (i := .crc32R32Rm32 p x r m) rfl code
    exact (afterCrc32_r32_dest ..).trans (by rw [← hsrc]; rfl)
  | crc32R64Rm64 _ x =>
    exact (afterCrc32_r64_dest ..).trans (by rw [mmCrc32U64, setWidth_r64, ← regNum_eq]; rfl)

end Sys2Proof.Machine
end

section
/-! Polynomials over GF(2) (40_crc32 R121): carry-less products, and `mod2` as the remainder of a division. -/

namespace Sys2Proof.Machine

/-! ### Carry-less products -/

/-- The product of `p` and the `n` lowest coefficients of `q`: the loop of `clmul`, `n` times round. -/
def partialProduct (n q p : Nat) : Nat :=
  (List.range n).foldl (fun acc i => if q.testBit i then acc ^^^ (p <<< i) else acc) 0

theorem partialProduct_succ (n q p : Nat) :
    partialProduct (n + 1) q p = partialProduct n q p ^^^ if q.testBit n then p <<< n else 0 := by
  simp only [partialProduct, List.range_succ, List.foldl_append, List.foldl_cons, List.foldl_nil]
  split <;> simp

theorem partialProduct_add {n q : Nat} (h : q < 2 ^ n) (k p : Nat) :
    partialProduct (n + k) q p = partialProduct n q p := by
  induction k with
  | zero => rfl
  | succ k ih =>
    have hbit : q.testBit (n + k) = false :=
      Nat.testBit_lt_two_pow (h.trans_le (Nat.pow_le_pow_right (by decide) (Nat.le_add_right n k)))
    rw [← Nat.add_assoc, partialProduct_succ, ih, hbit]
    exact Nat.xor_zero _

/-- Any number of rounds that reaches all of `q` gives the product. -/
theorem clmul_eq_partialProduct {n q : Nat} (h : q < 2 ^ n) (p : Nat) : clmul q p = partialProduct n q p :=
  calc partialProduct (q.log2 + 1) q p
    _ = partialProduct (q.log2 + 1 + n) q p := (partialProduct_add Nat.lt_log2_self n p).symm
    _ = partialProduct n q p := by rw [Nat.add_comm]; exact partialProduct_add h _ p

theorem partialProduct_xor (n q r p : Nat) :
    partialProduct n (q ^^^ r) p = partialProduct n q p ^^^ partialProduct n r p := by
  induction n with
  | zero => simp [partialProduct]
  | succ n ih =>
    have hbit : (if (q ^^^ r).testBit n then p <<< n else 0)
        = (if q.testBit n then p <<< n else 0) ^^^ if r.testBit n then p <<< n else 0 := by
      rw [Nat.testBit_xor]
      cases q.testBit n <;> cases r.testBit n <;> simp
    rw [partialProduct_succ, ih, hbit, partialProduct_succ, partialProduct_succ]
    ac_rfl

theorem clmul_xor (q r p : Nat) : clmul (q ^^^ r) p = clmul q p ^^^ clmul r p := by
  have hq : q < 2 ^ (q + r) := Nat.lt_two_pow_self.trans_le (Nat.pow_le_pow_right (by decide) (Nat.le_add_right q r))
  have hr : r < 2 ^ (q + r) := Nat.lt_two_pow_self.trans_le (Nat.pow_le_pow_right (by decide) (Nat.le_add_left r q))
  rw [clmul_eq_partialProduct (Nat.xor_lt_two_pow hq hr), clmul_eq_partialProduct hq, clmul_eq_partialProduct hr,
    partialProduct_xor]

theorem partialProduct_shiftLeft_one (n q p : Nat) :
    partialProduct (n + 1) (q <<< 1) p = partialProduct n q p <<< 1 := by
  induction n with
  | zero => simp [partialProduct]
  | succ n ih =>
    rw [partialProduct_succ, ih, partialProduct_succ, Nat.shiftLeft_xor_distrib, Nat.shiftLeft_add]
    cases hq : q.testBit n <;> simp [hq]

theorem clmul_shiftLeft_one (q p : Nat) : clmul (q <<< 1) p = clmul q p <<< 1 := by
  rw [clmul_eq_partialProduct (Nat.shiftLeft_lt Nat.lt_log2_self)]
  exact partialProduct_shiftLeft_one ..

theorem clmul_zero (p : Nat) : clmul 0 p = 0 := clmul_eq_partialProduct (n := 0) (by decide) p

theorem clmul_two_pow (k p : Nat) : clmul (2 ^ k) p = p <<< k := by
  induction k with
  | zero => rw [clmul_eq_partialProduct (n := 1) (by decide)]; simp [partialProduct]
  | succ k ih =>
    rw [show 2 ^ (k + 1) = 2 ^ k <<< 1 from (Nat.shiftLeft_eq _ 1).symm, clmul_shiftLeft_one, ih, Nat.shiftLeft_add]

theorem partialProduct_lt (n q p : Nat) : partialProduct n q p < 2 ^ (n + p.log2) := by
  induction n with
  | zero => exact Nat.two_pow_pos _
  | succ n ih =>
    rw [partialProduct_succ]
    refine Nat.xor_lt_two_pow (ih.trans (Nat.pow_lt_pow_right (by decide) (by omega))) ?_
    split
    · have := Nat.shiftLeft_lt (m := n) (Nat.lt_log2_self (n := p))
      rwa [show p.log2 + 1 + n = n + 1 + p.log2 by omega] at this
    · exact Nat.two_pow_pos _

/-- The degree of a product is the sum of the degrees. -/
theorem two_pow_le_clmul {q p : Nat} (hq : q ≠ 0) (hp : p ≠ 0) : 2 ^ (q.log2 + p.log2) ≤ clmul q p := by
  have hlow := Nat.testBit_lt_two_pow (partialProduct_lt q.log2 q p)
  apply Nat.ge_two_pow_of_testBit
  rw [clmul_eq_partialProduct Nat.lt_log2_self, partialProduct_succ, Nat.testBit_log2 hq, if_pos rfl, Nat.testBit_xor,
    hlow, Nat.testBit_shiftLeft]
  simp [Nat.testBit_log2 hp]

/-! ### Polynomials that differ by a multiple -/

/-- `a` and `b` differ by a multiple of `p`. -/
def Congruent (p a b : Nat) : Prop := ∃ q, a = clmul q p ^^^ b

section
variable {p a b c d : Nat}

theorem Congruent.refl (p a : Nat) : Congruent p a a := ⟨0, by rw [clmul_zero, Nat.zero_xor]⟩

theorem Congruent.symm (h : Congruent p a b) : Congruent p b a := by
  obtain ⟨q, rfl⟩ := h
  exact ⟨q, by simp⟩

theorem Congruent.trans (hab : Congruent p a b) (hbc : Congruent p b c) : Congruent p a c := by
  obtain ⟨q, rfl⟩ := hab
  obtain ⟨r, rfl⟩ := hbc
  exact ⟨q ^^^ r, by rw [clmul_xor, Nat.xor_assoc]⟩

theorem Congruent.xor_right (h : Congruent p a b) (c : Nat) : Congruent p (a ^^^ c) (b ^^^ c) := by
  obtain ⟨q, rfl⟩ := h
  exact ⟨q, Nat.xor_assoc ..⟩

theorem Congruent.shiftLeft_one (h : Congruent p a b) : Congruent p (a <<< 1) (b <<< 1) := by
  obtain ⟨q, rfl⟩ := h
  exact ⟨q <<< 1, by rw [clmul_shiftLeft_one, Nat.shiftLeft_xor_distrib]⟩

theorem congruent_xor_shiftLeft (p a k : Nat) : Congruent p (a ^^^ p <<< k) a :=
  ⟨2 ^ k, by rw [clmul_two_pow, Nat.xor_comm]⟩

/-- Of the values of a degree below that of `p`, no two differ by a multiple of `p`. -/
theorem Congruent.eq_of_lt (h : Congruent p a b) (hp : p ≠ 0) (ha : a < 2 ^ p.log2) (hb : b < 2 ^ p.log2) : a = b := by
  obtain ⟨q, hq⟩ := h
  have hmul : clmul q p = a ^^^ b := by rw [hq, Nat.xor_xor_cancel_right]
  have hlt : clmul q p < 2 ^ p.log2 := hmul ▸ Nat.xor_lt_two_pow ha hb
  have hzero : q = 0 := by
    by_contra hne
    have hle : 2 ^ p.log2 ≤ 2 ^ (q.log2 + p.log2) := Nat.pow_le_pow_right (by decide) (Nat.le_add_left ..)
    exact absurd (hle.trans (two_pow_le_clmul hne hp)) (Nat.not_le.2 hlt)
  rw [hq, hzero, clmul_zero, Nat.zero_xor]

/-! ### The remainder -/

/-- A degree below that of `p`, as a bound (40_crc32 R121). -/
theorem lt_two_pow_log2_iff (r p : Nat) : r < 2 ^ p.log2 ↔ r = 0 ∨ r.log2 < p.log2 := by
  by_cases hr : r = 0
  · simp [hr]
  · simp [hr, Nat.log2_lt hr]

/-- Two values with the same leading bit cancel it. -/
theorem xor_lt_two_pow_of_testBit {k : Nat} (ha : a < 2 ^ (k + 1)) (hb : b < 2 ^ (k + 1)) (hak : a.testBit k = true)
    (hbk : b.testBit k = true) : a ^^^ b < 2 ^ k := by
  refine Nat.lt_pow_two_of_testBit _ fun j hj => ?_
  rcases hj.eq_or_lt with rfl | hlt
  · simp [hak, hbk]
  · exact Nat.testBit_lt_two_pow ((Nat.xor_lt_two_pow ha hb).trans_le (Nat.pow_le_pow_right (by decide) hlt))

/-- One round of `mod2` lowers the degree. -/
theorem xor_shiftLeft_log2_lt (ha : a ≠ 0) (hp : p ≠ 0) (h : p.log2 ≤ a.log2) :
    a ^^^ p <<< (a.log2 - p.log2) < 2 ^ a.log2 := by
  refine xor_lt_two_pow_of_testBit Nat.lt_log2_self ?_ (Nat.testBit_log2 ha) ?_
  · have hs := Nat.shiftLeft_lt (m := a.log2 - p.log2) (Nat.lt_log2_self (n := p))
    rwa [show p.log2 + 1 + (a.log2 - p.log2) = a.log2 + 1 by omega] at hs
  · rw [Nat.testBit_shiftLeft, Nat.sub_sub_self h, Nat.testBit_log2 hp]
    simp

theorem mod2Loop_spec (hp : p ≠ 0) {fuel : Nat} (ha : a < 2 ^ fuel) :
    mod2Loop fuel a p < 2 ^ p.log2 ∧ Congruent p a (mod2Loop fuel a p) := by
  induction fuel generalizing a with
  | zero =>
    obtain rfl : a = 0 := by simpa using ha
    exact ⟨Nat.two_pow_pos _, Congruent.refl ..⟩
  | succ fuel ih =>
    rw [mod2Loop]
    split
    case isTrue hround =>
      obtain ⟨hne, hdeg⟩ := hround
      have hfuel : a.log2 ≤ fuel := Nat.lt_succ_iff.1 ((Nat.log2_lt hne).2 ha)
      obtain ⟨hlt, hcong⟩ :=
        ih ((xor_shiftLeft_log2_lt hne hp hdeg).trans_le (Nat.pow_le_pow_right (by decide) hfuel))
      exact ⟨hlt, (congruent_xor_shiftLeft ..).symm.trans hcong⟩
    case isFalse hdone => exact ⟨(lt_two_pow_log2_iff a p).2 (by omega), Congruent.refl ..⟩

theorem mod2_lt (hp : p ≠ 0) (a : Nat) : mod2 a p < 2 ^ p.log2 := (mod2Loop_spec hp Nat.lt_log2_self).1

theorem congruent_mod2 (hp : p ≠ 0) (a : Nat) : Congruent p a (mod2 a p) := (mod2Loop_spec hp Nat.lt_log2_self).2

/-- A remainder is told by its degree and its congruence (40_crc32 R121). -/
theorem Congruent.eq_mod2 (hp : p ≠ 0) (hr : b < 2 ^ p.log2) (h : Congruent p a b) : b = mod2 a p :=
  (h.symm.trans (congruent_mod2 hp a)).eq_of_lt hp hr (mod2_lt hp a)

theorem Congruent.mod2_eq (hp : p ≠ 0) (h : Congruent p a b) : mod2 a p = mod2 b p :=
  (h.symm.trans (congruent_mod2 hp a)).eq_mod2 hp (mod2_lt hp a)

end

/-- Settles O2: `mod2` keeps the congruence and stops below the degree of `p`, and a multiple that is not 0 does not. -/
theorem mod2IsTheUniqueRemainder : Obligations.Mod2IsTheUniqueRemainder := by
  unfold Obligations.Mod2IsTheUniqueRemainder
  intro a p hp
  refine ⟨(lt_two_pow_log2_iff ..).1 (mod2_lt hp a), congruent_mod2 hp a, fun q r hr ha => ?_⟩
  exact Congruent.eq_mod2 hp ((lt_two_pow_log2_iff ..).2 hr) ⟨q, ha⟩

end Sys2Proof.Machine
end

section
/-! The CRC step (40_crc32 R120 to R123) and its forms: bit by bit, in narrower steps, as a linear map, and by table (R140
to R144). -/

namespace Sys2Proof.Machine

/-! ### Reflection -/

theorem getLsbD_reflect {n : Nat} (v : BitVec n) {i : Nat} (h : i < n) :
    (reflect v).getLsbD i = v.getLsbD (n - 1 - i) := by
  rw [reflect, BitVec.getLsbD_reverse, BitVec.getMsbD_eq_getLsbD, decide_eq_true h, Bool.true_and]

@[simp] theorem reflect_reflect {n : Nat} (v : BitVec n) : reflect (reflect v) = v := by
  refine BitVec.eq_of_getLsbD_eq fun i hi => ?_
  rw [getLsbD_reflect _ hi, getLsbD_reflect _ (by omega), show n - 1 - (n - 1 - i) = i by omega]

theorem reflect_xor {n : Nat} (v w : BitVec n) : reflect (v ^^^ w) = reflect v ^^^ reflect w := by
  refine BitVec.eq_of_getLsbD_eq fun i hi => ?_
  simp only [getLsbD_reflect _ hi, BitVec.getLsbD_xor]

theorem reflect_ushiftRight_one {n : Nat} (v : BitVec n) : reflect (v >>> 1) = reflect v <<< 1 := by
  refine BitVec.eq_of_getLsbD_eq fun i hi => ?_
  rw [getLsbD_reflect _ hi, BitVec.getLsbD_ushiftRight, BitVec.getLsbD_shiftLeft]
  by_cases hi0 : i = 0
  · rw [BitVec.getLsbD_of_ge _ _ (by omega)]
    simp [hi0]
  · rw [getLsbD_reflect _ (by omega), show n - 1 - (i - 1) = 1 + (n - 1 - i) by omega]
    simp [hi, hi0]

/-- The last bit of the data is the lowest of its reflection. -/
theorem toNat_reflect_succ {n : Nat} (v : BitVec (n + 1)) :
    (reflect v).toNat = (reflect (v.setWidth n)).toNat <<< 1 ^^^ (v.getLsbD n).toNat := by
  rw [reflect, BitVec.reverse, BitVec.toNat_concat, BitVec.msb_eq_getLsbD_last, Nat.add_sub_cancel]
  cases v.getLsbD n <;> simp [reflect, Nat.shiftLeft_eq]

theorem reflectedPoly_eq : reflectedPoly = reflect (0x1EDC6F41 : DWord) := by decide +kernel

/-- Settles O1: bit `i` is read off the reflection, and twice is back; the rule's examples are evaluated. -/
theorem reflectReversesTheBits : Obligations.ReflectReversesTheBits := by
  unfold Obligations.ReflectReversesTheBits
  exact ⟨fun n v i hi => getLsbD_reflect v hi, fun n v => reflect_reflect v, by decide +kernel, by decide +kernel,
    by decide +kernel, reflectedPoly_eq.symm⟩

/-! ### The step as a remainder -/

theorem poly_ne_zero : poly ≠ 0 := by decide
theorem poly_log2 : poly.log2 = 32 := by decide

/-- The polynomial that the step divides (40_crc32 R123, `temp5`). -/
def dividend (n : Nat) (crc : DWord) (data : BitVec n) : Nat := (reflect data).toNat <<< 32 ^^^ (reflect crc).toNat <<< n

theorem crc32cStep_eq_mod2 (n : Nat) (crc : DWord) (data : BitVec n) :
    crc32cStep n crc data = reflect (BitVec.ofNat 32 (mod2 (dividend n crc data) poly)) := by
  have hdata : (reflect data).toNat <<< 32 < 2 ^ (n + 32) := Nat.shiftLeft_lt (reflect data).isLt
  have hcrc : (reflect crc).toNat <<< n < 2 ^ (n + 32) := Nat.add_comm 32 n ▸ Nat.shiftLeft_lt (reflect crc).isLt
  have hd : (reflect data).toNat < 2 ^ (n + 32) :=
    (reflect data).isLt.trans_le (Nat.pow_le_pow_right (by decide) (by omega))
  have hc : (reflect crc).toNat < 2 ^ (n + 32) :=
    (reflect crc).isLt.trans_le (Nat.pow_le_pow_right (by decide) (by omega))
  have hdiv : ((reflect data).setWidth (n + 32) <<< 32 ^^^ (reflect crc).setWidth (n + 32) <<< n).toNat
      = dividend n crc data := by
    rw [BitVec.toNat_xor, BitVec.toNat_shiftLeft, BitVec.toNat_shiftLeft, BitVec.toNat_setWidth, BitVec.toNat_setWidth,
      Nat.mod_eq_of_lt hd, Nat.mod_eq_of_lt hc, Nat.mod_eq_of_lt hdata, Nat.mod_eq_of_lt hcrc, dividend]
  rw [← hdiv, crc32cStep]

/-- One more bit of data doubles the polynomial and adds the bit at `x^32`. -/
theorem dividend_succ (n : Nat) (crc : DWord) (data : BitVec (n + 1)) :
    dividend (n + 1) crc data
      = dividend n crc (data.setWidth n) <<< 1 ^^^ (data.getLsbD n).toNat <<< 32 := by
  rw [dividend, dividend, toNat_reflect_succ, Nat.shiftLeft_xor_distrib, Nat.shiftLeft_xor_distrib, ← Nat.shiftLeft_add,
    ← Nat.shiftLeft_add, ← Nat.shiftLeft_add, Nat.add_comm 1]
  exact Nat.xor_right_comm ..

theorem testBit_toNat_shiftLeft (b : Bool) (k j : Nat) : (b.toNat <<< k).testBit j = (decide (j = k) && b) := by
  cases b with
  | false => simp
  | true => rw [Bool.toNat_true, Nat.one_shiftLeft, Nat.testBit_two_pow, Bool.and_true, decide_eq_decide, eq_comm]

/-- Doubling a double word sends its highest bit to `x^32`. -/
theorem toNat_shiftLeft_one (r : DWord) : r.toNat <<< 1 = (r <<< 1).toNat ^^^ (r.getLsbD 31).toNat <<< 32 := by
  refine Nat.eq_of_testBit_eq fun j => ?_
  rw [Nat.testBit_xor, Nat.testBit_shiftLeft, testBit_toNat_shiftLeft, BitVec.testBit_toNat, BitVec.testBit_toNat,
    BitVec.getLsbD_shiftLeft]
  rcases Nat.lt_trichotomy j 32 with hlt | rfl | hgt
  · simp [hlt, hlt.ne, Nat.one_le_iff_ne_zero]
  · simp
  · simp [hgt.ne', Nat.not_lt.2 hgt.le, BitVec.getLsbD_of_ge r (j - 1) (by omega)]

/-- The reflection of a round: doubled, and the polynomial subtracted where the two leading bits differ. -/
theorem reflect_bitRound (c : DWord) (b : Bool) :
    reflect (bitRound c b)
      = if (reflect c).getLsbD 31 ^^ b then reflect c <<< 1 ^^^ reflect reflectedPoly else reflect c <<< 1 := by
  rw [getLsbD_reflect c (by decide), bitRound]
  split
  · rw [reflect_xor, reflect_ushiftRight_one]
  · exact reflect_ushiftRight_one c

/-- The polynomial is `x^32` and the part the reflected constant holds (40_crc32 R122, R140). -/
theorem poly_eq : poly = (reflect reflectedPoly).toNat ^^^ 1 <<< 32 := rfl

/-- A round doubles the reflected register, adds the data bit at `x^32` and takes the remainder (40_crc32 R140). -/
theorem toNat_reflect_bitRound (c : DWord) (b : Bool) :
    (reflect (bitRound c b)).toNat = mod2 ((reflect c).toNat <<< 1 ^^^ b.toNat <<< 32) poly := by
  refine Congruent.eq_mod2 poly_ne_zero (by rw [poly_log2]; exact BitVec.isLt _) ?_
  have hvalue : (reflect c).toNat <<< 1 ^^^ b.toNat <<< 32
      = (reflect c <<< 1).toNat ^^^ ((reflect c).getLsbD 31 ^^ b).toNat <<< 32 := by
    rw [toNat_shiftLeft_one, Nat.xor_assoc, ← Nat.shiftLeft_xor_distrib]
    cases (reflect c).getLsbD 31 <;> cases b <;> rfl
  rw [hvalue, reflect_bitRound]
  cases (reflect c).getLsbD 31 ^^ b with
  | false => simpa using Congruent.refl ..
  | true =>
    have hsub := congruent_xor_shiftLeft poly (reflect c <<< 1 ^^^ reflect reflectedPoly).toNat 0
    rw [Nat.shiftLeft_zero, poly_eq, BitVec.toNat_xor, ← Nat.xor_assoc, Nat.xor_xor_cancel_right, ← poly_eq] at hsub
    simpa using hsub

/-! ### The bit-serial form -/

/-- The bit-serial form reads the data through its bits alone. -/
theorem bitSerial_eq_foldl {n : Nat} {data : BitVec n} {bit : Nat → Bool} (h : ∀ i, i < n → data.getLsbD i = bit i)
    (crc : DWord) : bitSerial crc data = (List.range n).foldl (fun c i => bitRound c (bit i)) crc :=
  List.foldl_ext _ _ _ fun c i hi => by rw [h i (List.mem_range.1 hi)]

theorem bitSerial_succ {n : Nat} (crc : DWord) (data : BitVec (n + 1)) :
    bitSerial crc data = bitRound (bitSerial crc (data.setWidth n)) (data.getLsbD n) := by
  rw [bitSerial_eq_foldl (data := data.setWidth n) (bit := data.getLsbD) fun i hi => by simp [hi]]
  simp only [bitSerial, List.range_succ, List.foldl_append, List.foldl_cons, List.foldl_nil]

/-- After the loop the reflected register holds the remainder: each round adds one bit of data (40_crc32 R123, R140). -/
theorem toNat_reflect_bitSerial {n : Nat} (crc : DWord) (data : BitVec n) :
    (reflect (bitSerial crc data)).toNat = mod2 (dividend n crc data) poly := by
  induction n with
  | zero =>
    have hdiv : dividend 0 crc data = (reflect crc).toNat := by simp [dividend, BitVec.of_length_zero]
    rw [hdiv]
    exact (Congruent.refl ..).eq_mod2 poly_ne_zero (by rw [poly_log2]; exact (reflect crc).isLt)
  | succ n ih =>
    rw [bitSerial_succ, toNat_reflect_bitRound, ih, dividend_succ]
    exact (((congruent_mod2 poly_ne_zero _).symm.shiftLeft_one).xor_right _).mod2_eq poly_ne_zero

theorem crc32cStep_eq_bitSerial {n : Nat} (crc : DWord) (data : BitVec n) :
    crc32cStep n crc data = bitSerial crc data := by
  rw [crc32cStep_eq_mod2, ← toNat_reflect_bitSerial, BitVec.ofNat_toNat, BitVec.setWidth_eq, reflect_reflect]

/-- Settles O3: by induction on the width, a round of the loop for each bit of the data. -/
theorem stepIsTheBitSerialForm : Obligations.StepIsTheBitSerialForm := by
  unfold Obligations.StepIsTheBitSerialForm
  exact ⟨reflectedPoly_eq, fun n crc data => crc32cStep_eq_bitSerial crc data⟩

/-! ### Narrower steps -/

/-- A step over `n + m` bits is one over the `n` low bits, then one over the rest (40_crc32 R141). -/
theorem crc32cStep_split {N n m : Nat} (h : N = n + m) (crc : DWord) (data : BitVec N) :
    crc32cStep N crc data = crc32cStep m (crc32cStep n crc (data.extractLsb' 0 n)) (data.extractLsb' n m) := by
  simp only [crc32cStep_eq_bitSerial]
  rw [bitSerial_eq_foldl (data := data.extractLsb' 0 n) (bit := data.getLsbD) fun i hi => by simp [hi],
    bitSerial_eq_foldl (data := data.extractLsb' n m) (bit := fun i => data.getLsbD (n + i)) fun i hi => by simp [hi]]
  simp only [bitSerial, h, List.range_add, List.foldl_append, List.foldl_map]

/-- On the little-endian value of bytes the step is the byte steps in ascending order (40_crc32 R141). -/
theorem crc32cStep_leValue (crc : DWord) (bs : List Byte) :
    crc32cStep (8 * bs.length) crc (BitVec.ofNat (8 * bs.length) (leValue bs)) = crcBytes crc bs := by
  induction bs generalizing crc with
  | nil => simp [crc32cStep_eq_bitSerial, bitSerial, crcBytes]
  | cons b bs ih =>
    have hlow : (BitVec.ofNat (8 * (b :: bs).length) (leValue (b :: bs))).extractLsb' 0 8 = b :=
      leValue_slice_byte (k := 0) rfl
    have hhigh : (BitVec.ofNat (8 * (b :: bs).length) (leValue (b :: bs))).extractLsb' 8 (8 * bs.length)
        = BitVec.ofNat (8 * bs.length) (leValue bs) := by
      simpa using leValue_slice (b :: bs) 1 bs.length
    rw [crc32cStep_split (n := 8) (m := 8 * bs.length) (by rw [List.length_cons]; omega), hlow, hhigh]
    exact ih _

/-- Settles O4: a step splits at any bit, and the first byte is the lowest of the value. -/
theorem wideStepIsByteStepsInOrder : Obligations.WideStepIsByteStepsInOrder := by
  unfold Obligations.WideStepIsByteStepsInOrder
  exact ⟨crc32cStep_split rfl, crc32cStep_split rfl, crc32cStep_split rfl, crc32cStep_leValue⟩

/-! ### Linearity -/

theorem bitRound_eq (c : DWord) (b : Bool) :
    bitRound c b = c >>> 1 ^^^ if c.getLsbD 0 ^^ b then reflectedPoly else 0 := by
  rw [bitRound]
  split
  · rfl
  · exact BitVec.xor_zero.symm

theorem bitRound_xor (a b : DWord) (x y : Bool) :
    bitRound (a ^^^ b) (x ^^ y) = bitRound a x ^^^ bitRound b y := by
  have hbit : ((a ^^^ b).getLsbD 0 ^^ (x ^^ y)) = ((a.getLsbD 0 ^^ x) ^^ (b.getLsbD 0 ^^ y)) := by
    simp only [BitVec.getLsbD_xor, Bool.xor_assoc, Bool.xor_left_comm]
  have hsub (t u : Bool) : (if t ^^ u then reflectedPoly else 0)
      = (if t then reflectedPoly else 0) ^^^ if u then reflectedPoly else 0 := by
    cases t <;> cases u <;> simp
  rw [bitRound_eq, bitRound_eq, bitRound_eq, hbit, hsub, BitVec.ushiftRight_xor_distrib]
  ac_rfl

theorem crc32cStep_xor {n : Nat} (a b : DWord) (v w : BitVec n) :
    crc32cStep n (a ^^^ b) (v ^^^ w) = crc32cStep n a v ^^^ crc32cStep n b w := by
  simp only [crc32cStep_eq_bitSerial]
  induction n with
  | zero => rfl
  | succ n ih => simp only [bitSerial_succ, BitVec.setWidth_xor, ih, BitVec.getLsbD_xor, bitRound_xor]

theorem crc32cStep_zero (n : Nat) : crc32cStep n 0 0 = 0 := by
  have h := crc32cStep_xor (n := n) 0 0 0 0
  simpa using h

/-- Settles O5: every round is linear. -/
theorem stepIsLinear : Obligations.StepIsLinear := by
  unfold Obligations.StepIsLinear
  exact ⟨fun n => crc32cStep_xor, crc32cStep_zero⟩

/-! ### Data equal to the register -/

/-- Where the data is the low bits of the register, every round only shifts (40_crc32 R143). -/
theorem crc32cStep_cancel {n : Nat} {crc : DWord} {data : BitVec n} (h : ∀ i, i < n → data.getLsbD i = crc.getLsbD i) :
    crc32cStep n crc data = crc >>> n := by
  rw [crc32cStep_eq_bitSerial]
  induction n with
  | zero => simp [bitSerial]
  | succ n ih =>
    rw [bitSerial_succ, ih fun i hi => by simpa [hi] using h i (by omega), h n (Nat.lt_succ_self n)]
    simp [bitRound, BitVec.shiftRight_add]

/-- A step over the register's own value leaves nothing of it. -/
theorem crc32cStep_self (c : DWord) : crc32cStep 32 c c = 0 := by
  rw [crc32cStep_cancel fun i _ => rfl]
  exact BitVec.ushiftRight_eq_zero le_rfl

/-- Up to 32 bits the step depends on the exclusive-or of register and data alone (40_crc32 R143). -/
theorem crc32cStep_data_eq {n : Nat} (hn : n ≤ 32) (c : DWord) (v : BitVec n) :
    crc32cStep n c v = crc32cStep n (c ^^^ v.setWidth 32) 0 := by
  have hcancel : crc32cStep n (v.setWidth 32) v = 0 := by
    rw [crc32cStep_cancel fun i hi => by simp; omega]
    refine BitVec.eq_of_toNat_eq ?_
    rw [BitVec.toNat_ushiftRight, BitVec.toNat_setWidth, Nat.shiftRight_eq_div_pow]
    exact Nat.div_eq_of_lt ((Nat.mod_le ..).trans_lt v.isLt)
  calc crc32cStep n c v
    _ = crc32cStep n (c ^^^ v.setWidth 32 ^^^ v.setWidth 32) (0#n ^^^ v) := by simp
    _ = crc32cStep n (c ^^^ v.setWidth 32) 0#n := by rw [crc32cStep_xor, hcancel]; exact BitVec.xor_zero

/-- Settles O6: rounds that cancel shift only, and the step is linear. -/
theorem dataEqualToTheCrcCancels : Obligations.DataEqualToTheCrcCancels := by
  unfold Obligations.DataEqualToTheCrcCancels
  refine ⟨fun c => crc32cStep_cancel fun i hi => by simp [hi], fun c => crc32cStep_cancel fun i hi => by simp [hi],
    crc32cStep_self, fun c => ?_, fun n c v hn => crc32cStep_data_eq hn c v⟩
  rw [crc32cStep_cancel fun i hi => by simp [hi]]
  exact BitVec.ushiftRight_eq_zero (by decide)

/-- Settles O7: the low byte of the register cancels, and the step is linear in what is left. -/
theorem byteStepIsTheTableForm : Obligations.ByteStepIsTheTableForm := by
  unfold Obligations.ByteStepIsTheTableForm
  intro c v
  have hcancel : crc32cStep 8 c (c.extractLsb' 0 8) = c >>> 8 := crc32cStep_cancel fun i hi => by simp [hi]
  have hlow : (c ^^^ v.setWidth 32).extractLsb' 0 8 = c.extractLsb' 0 8 ^^^ v := by
    rw [BitVec.extractLsb'_xor, BitVec.extractLsb'_setWidth_of_le (by decide), BitVec.extractLsb'_eq_self]
  calc crc32cStep 8 c v
    _ = crc32cStep 8 ((0 : DWord) ^^^ c) (c.extractLsb' 0 8 ^^^ v ^^^ c.extractLsb' 0 8) := by
      rw [BitVec.xor_comm (c.extractLsb' 0 8), BitVec.xor_assoc, BitVec.xor_self]
      simp
    _ = crcTable ((c ^^^ v.setWidth 32).extractLsb' 0 8) ^^^ (c >>> 8) := by
      rw [crc32cStep_xor, hcancel, crcTable, hlow]

end Sys2Proof.Machine
end

section
/-! The six instructions (40_crc32 R124 to R131): what each leaves with a register source, their frame, and what their
outcome does not depend on (R147). -/

namespace Sys2Proof.Machine

open Sys2Proof.Safety

/-! ### Register sources -/

/-- An executable instruction with a register source completes with the step on it (40_crc32 R130). -/
theorem completesWith_of_register {i : Instr} {s : State} {code : BitVec 3} {d : RegNum}
    {data : BitVec (srcSizeOf i).bits} (h : Executable i s) (hrm : i.rm = .reg code) (hd : destReg i = d)
    (hdata : regSource (srcSizeOf i) i code s = data) :
    CompletesWith i s d (crc32cStep (srcSizeOf i).bits (s.r32 d) data) := by
  subst hd hdata
  exact completesWith_of_readSource h (readSource_reg hrm)

theorem r8lo_eq_slice (s : State) (r : RegNum) : s.r8lo r = (s.r64 r).extractLsb' 0 8 := lo_slice_eq s r (by decide)
theorem r16_eq_slice (s : State) (r : RegNum) : s.r16 r = (s.r64 r).extractLsb' 0 16 := lo_slice_eq s r (by decide)

/-- The destination under a REX byte that may be absent (30_encoding R88). -/
theorem destReg_eq {i : Instr} {x : Option RexBits} (h : i.rex = x.map (Rex.mk false)) :
    destReg i = numberOf (bitR x) i.reg := by
  rw [destReg, regNum_eq, Instr.rexBits, h]
  cases x <;> rfl

/-- Codes 4 to 7 without a REX byte are AH, CH, DH, BH (30_encoding R90). -/
theorem byteSource_none (code : BitVec 3) (s : State) :
    byteSource none code s =
      if code.toNat < 4 then (s.r64 (Fin.ofNat 16 code.toNat)).extractLsb' 0 8
      else (s.r64 (Fin.ofNat 16 (code.toNat - 4))).extractLsb' 8 8 := by
  have hlow : regNum false code = Fin.ofNat 16 code.toNat := by revert code; decide
  have hhigh : (Fin.ofNat 4 (code.toNat - 4)).castLE (by decide) = Fin.ofNat 16 (code.toNat - 4) := by
    revert code; decide
  rw [byteSource, r8lo_eq_slice, hlow, State.r8hi, lo_slice_eq s _ (by decide), hhigh]

/-- With a REX byte the source is the low byte of the register named (30_encoding R89, R90). -/
theorem byteSource_some (x : Rex) (code : BitVec 3) (s : State) :
    byteSource (some x) code s = (s.r64 (numberOf x.bits.b code)).extractLsb' 0 8 := by
  rw [byteSource, r8lo_eq_slice, regNum_eq]

/-- Settles O20: the byte source without a REX byte is the low or the second byte of registers 0 to 3. -/
theorem byteFormWithoutRexOnRegisters : Obligations.ByteFormWithoutRexOnRegisters := by
  unfold Obligations.ByteFormWithoutRexOnRegisters
  intro pfx reg code s h
  exact completesWith_of_register h rfl (regNum_eq ..) (byteSource_none code s)

/-- Settles O21: the byte source with a REX byte is the low byte of the register it names. -/
theorem byteFormWithRexOnRegisters : Obligations.ByteFormWithRexOnRegisters := by
  unfold Obligations.ByteFormWithRexOnRegisters
  intro pfx x reg code s h
  exact completesWith_of_register h rfl (regNum_eq ..) (byteSource_some ⟨false, x⟩ code s)

/-- Settles O22: the word source is the low slice of the register that REX.B and the field name. -/
theorem wordFormOnRegisters : Obligations.WordFormOnRegisters := by
  unfold Obligations.WordFormOnRegisters
  intro pfx x reg code s h
  refine completesWith_of_register h rfl (destReg_eq rfl) ?_
  rw [← regNum_rexBits_b (i := .crc32R32Rm16 pfx x reg (.reg code)) rfl]
  exact r16_eq_slice ..

/-- Settles O23: the double-word source is the low half of the register that REX.B and the field name. -/
theorem doubleWordFormOnRegisters : Obligations.DoubleWordFormOnRegisters := by
  unfold Obligations.DoubleWordFormOnRegisters
  intro pfx x reg code s h
  refine completesWith_of_register h rfl (destReg_eq rfl) ?_
  rw [← regNum_rexBits_b (i := .crc32R32Rm32 pfx x reg (.reg code)) rfl]
  exact r32_eq_slice ..

/-- Settles O24: the byte source with a REX byte is the low byte of the register it names. -/
theorem byteFormToR64OnRegisters : Obligations.ByteFormToR64OnRegisters := by
  unfold Obligations.ByteFormToR64OnRegisters
  intro pfx x reg code s h
  exact completesWith_of_register h rfl (regNum_eq ..) (byteSource_some ⟨true, x⟩ code s)

/-- Settles O25: the quad-word source is the whole register. -/
theorem quadWordFormOnRegisters : Obligations.QuadWordFormOnRegisters := by
  unfold Obligations.QuadWordFormOnRegisters
  intro pfx x reg code s h
  exact completesWith_of_register h rfl (regNum_eq ..) (congrArg s.r64 (regNum_eq ..))

/-- Settles O28: source and old value are one double word, and 32 rounds shift it out. -/
theorem doubleWordFormOfARegisterWithItselfIsZero : Obligations.DoubleWordFormOfARegisterWithItselfIsZero := by
  unfold Obligations.DoubleWordFormOfARegisterWithItselfIsZero
  intro pfx x reg s hbits h
  have hcomplete := doubleWordFormOnRegisters pfx x reg reg s h
  rwa [← hbits, ← r32_eq_slice, crc32cStep_self] at hcomplete

/-! ### The frame -/

/-- Settles O27: a completed instruction writes its destination and the pc. -/
theorem onlyDestinationAndPcChange : Obligations.OnlyDestinationAndPcChange := by
  unfold Obligations.OnlyDestinationAndPcChange
  intro i s t h
  rw [exec_eq, execCrc32_next] at h
  obtain ⟨-, htop, -, -, data, -, rfl⟩ := h
  refine ⟨fun r hr => afterCrc32_gpr_other hr, ?_, afterCrc32_pc_toNat, afterCrc32_flags .., fun a => by
    rw [afterCrc32_mem], afterCrc32_env ..⟩
  exact Nat.not_lt.1 fun hpast => by simp [passesTop_iff.2 hpast] at htop

/-! ### The two byte forms with a REX byte -/

/-- In `Long64` both widths of the destination are written alike (10_state R23, R24). -/
theorem afterCrc32_long64 {s : State} (h : s.env.ctx.mode = .long64) (sz : SrcSize) (i : Instr) (data : BitVec sz.bits) :
    afterCrc32 sz .r64 i data s = afterCrc32 sz .r32 i data s := by
  simp only [afterCrc32, writeDest, writeR32_long64 h]

/-- Settles O29: the rows differ in the width of the destination alone, which changes nothing in `Long64`; elsewhere
neither is an encoding. -/
theorem byteFormsWithRexAgree : Obligations.ByteFormsWithRexAgree := by
  unfold Obligations.ByteFormsWithRexAgree
  intro pfx x reg rm s
  by_cases hm : s.env.ctx.mode = .long64
  · calc exec (.crc32R64Rm8 pfx x reg rm) s
      _ = execCrc32 .b8 .r64 (.crc32R32Rm8Rex pfx x reg rm) s := rfl
      _ = exec (.crc32R32Rm8Rex pfx x reg rm) s := by
        rw [exec_eq]
        simp only [execCrc32, afterCrc32_long64 hm, srcSizeOf, destSizeOf]
  · have hnone := noRexOutsideLong64.2
    rw [hnone _ s hm (by simp [Instr.rex]), hnone _ s hm (by simp [Instr.rex])]

/-! ### The privilege level -/

section
variable {s : State} (c : Fin 4)

theorem translate_atLevel (h : s.env.paging = .off) (la : QWord) :
    (atLevel c s).env.translate la = s.env.translate la := by
  rw [translate_paging_off h, translate_paging_off (e := (atLevel c s).env) h]

theorem translations_atLevel (h : s.env.paging = .off) (la : QWord) (n : Nat) :
    translations (atLevel c s).env la n = translations s.env la n := by
  simp only [translations, translate_atLevel c h]
  rfl

theorem failsAlignment_unchecked {e : Env} (h : e.alignCheck = false) (ea la : QWord) (n : Nat) :
    failsAlignment e ea la n = false := by
  simp [failsAlignment, Env.checksAlignment, h]

/-- With alignment unchecked and paging off, the same exceptions apply at every level (60_exceptions R174). -/
theorem operandFaults_atLevel (hac : s.env.alignCheck = false) (hpg : s.env.paging = .off) (seg : SegReg) (ea : QWord)
    (n : Nat) : operandFaults (atLevel c s).env seg ea n = operandFaults s.env seg ea n := by
  simp only [operandFaults, translations_atLevel c hpg, failsAlignment_unchecked hac,
    failsAlignment_unchecked (e := (atLevel c s).env) hac]
  rfl

theorem readSource_atLevel (hac : s.env.alignCheck = false) (hpg : s.env.paging = .off) (sz : SrcSize) (i : Instr) :
    readSource sz i (atLevel c s) = readSource sz i s := by
  have hread (seg : SegReg) (ea : QWord) : readOperand sz seg ea (atLevel c s) = readOperand sz seg ea s := by
    simp only [readOperand, operandFaults_atLevel c hac hpg, translations_atLevel c hpg]
    rfl
  simp only [readSource, hread]
  rfl

theorem writeDest_atLevel (w : DestSize) (d : RegNum) (v : DWord) :
    writeDest w d v (atLevel c s) = atLevel c (writeDest w d v s) := by
  cases w with
  | r64 => rfl
  | r32 => by_cases h : s.env.ctx.mode = .long64 <;> simp [writeDest, State.writeR32, atLevel, h] <;> rfl

theorem advance_atLevel (n : Nat) : (atLevel c s).advance n = atLevel c (s.advance n) := by
  by_cases h : s.pc.toNat + n < 2 ^ s.env.ctx.pcRegWidth
  · rw [advance_of_lt h, advance_of_lt (s := atLevel c s) h]; rfl
  · rw [advance_of_not_lt h, advance_of_not_lt (s := atLevel c s) h]; rfl

theorem afterCrc32_atLevel (sz : SrcSize) (dw : DestSize) (i : Instr) (data : BitVec sz.bits) :
    afterCrc32 sz dw i data (atLevel c s) = atLevel c (afterCrc32 sz dw i data s) := by
  rw [afterCrc32_eq, afterCrc32_eq, ← advance_atLevel, show (atLevel c s).r32 = s.r32 from rfl, writeDest_atLevel]
  rfl

end

/-- Settles O48: the level enters the alignment check and the translation alone, and both are off. -/
theorem privilegeLevelMattersOnlyToTheChecks : Obligations.PrivilegeLevelMattersOnlyToTheChecks := by
  unfold Obligations.PrivilegeLevelMattersOnlyToTheChecks
  intro i s c hac hpg
  rcases exec_agree (i := i) (s := s) (t := atLevel c s) rfl rfl rfl (fun _ => readSource_atLevel c hac hpg ..) with
    ⟨data, hs, ht⟩ | ⟨hstop, ht⟩
  · rw [hs, ht, afterCrc32_atLevel, mapNext]
  · rw [ht, mapNext_of_not_next hstop]

end Sys2Proof.Machine
end

section
/-! Exceptions (60_exceptions R160 to R168): when an instruction raises one and which, and that this does not tell
compatibility mode from protected mode. -/

namespace Sys2Proof.Machine

open Sys2Proof.Safety

/-! ### When an instruction raises an exception -/

/-- A source's read raises an exception exactly when it is in memory and the exception is the one chosen of those that
apply. -/
theorem readSource_fault {sz : SrcSize} {i : Instr} {s : State} {f : Fault} :
    readSource sz i s = .error (.fault f) ↔
      ¬ IsRegister i.rm
      ∧ chooseFault s.free (operandFaults s.env (operandSegment i s.env.ctx.mode) (effectiveAddress i s) sz.bytes)
        = some f := by
  by_cases hrm : IsRegister i.rm
  · cases hc : i.rm with
    | reg code => simp [readSource_reg hc, IsRegister]
    | _ => exact absurd hrm (by simp [hc, IsRegister])
  · simp only [readSource_not_register hrm, readOperand_fault, hrm, not_false_eq_true, true_and]

/-- An instruction raises an exception exactly when it is `#UD` and has a cause of R161, or is the choice among the exceptions
that apply to the memory source of an enabled instruction. -/
theorem exec_fault_iff {i : Instr} {s : State} {f : Fault} :
    exec i s = .fault f ↔
      (i.wellFormed s.env.ctx = true ∧ (s.env.sse42 = false ∨ LegacyPrefix.lock ∈ i.prefixes) ∧ f = .ud)
      ∨ (Enabled i s ∧ ¬ IsRegister i.rm
        ∧ chooseFault s.free (operandFaults s.env (operandSegment i s.env.ctx.mode) (effectiveAddress i s)
            (srcSizeOf i).bytes) = some f) := by
  rw [exec_eq, execCrc32_fault, readSource_fault, hasLock_eq_true, ← Bool.not_eq_true i.hasLock, hasLock_eq_true,
    or_comm (a := LegacyPrefix.lock ∈ i.prefixes), Enabled]
  tauto

/-- An exception that is not `#UD` is raised by an enabled instruction with a memory source. -/
theorem enabled_of_exec_fault {i : Instr} {s : State} {f : Fault} (h : exec i s = .fault f) (hf : f ≠ .ud) :
    Enabled i s ∧ ¬ IsRegister i.rm := by
  obtain ⟨-, -, hud⟩ | ⟨hen, hrm, -⟩ := exec_fault_iff.1 h
  · exact absurd hud hf
  · exact ⟨hen, hrm⟩

/-- Where some exception applies to a memory source, the choice raises one (60_exceptions R168). -/
theorem exec_fault_of_applies {i : Instr} {s : State} {f : Fault} (hen : Enabled i s) (hrm : ¬ IsRegister i.rm)
    (hf : Applies s.env (operandSegment i s.env.ctx.mode) (effectiveAddress i s) (srcSizeOf i).bytes f) :
    ∃ g, exec i s = .fault g := by
  have hne : operandFaults s.env (operandSegment i s.env.ctx.mode) (effectiveAddress i s) (srcSizeOf i).bytes ≠ [] :=
    List.ne_nil_of_mem ((mem_operandFaults_iff (bytes_pos _)).2 hf)
  obtain ⟨g, hg⟩ := Option.ne_none_iff_exists'.1 (mt (chooseFault_none (free := s.free)).1 hne)
  exact ⟨g, exec_fault_iff.2 (.inr ⟨hen, hrm, hg⟩)⟩

/-! ### Compatibility and protected mode -/

/-- From states on which its checks and its source agree, an instruction stops alike, or completes in states that `g`
relates. -/
theorem exec_eq_mapNext {i : Instr} {s t : State} {g : State → State}
    (hw : i.wellFormed t.env.ctx = i.wellFormed s.env.ctx) (hsse : t.env.sse42 = s.env.sse42)
    (hread : readSource (srcSizeOf i) i t = readSource (srcSizeOf i) i s)
    (htop : t.passesTop i.length = s.passesTop i.length)
    (hafter : ∀ data, afterCrc32 (srcSizeOf i) (destSizeOf i) i data t
      = g (afterCrc32 (srcSizeOf i) (destSizeOf i) i data s)) :
    exec i t = mapNext g (exec i s) := by
  rw [exec_eq, exec_eq, execCrc32, execCrc32, hw, hsse, hread, htop]
  by_cases hwf : i.wellFormed s.env.ctx = true
  · by_cases hud : (i.hasLock || !s.env.sse42) = true
    · simp [hwf, hud, raise, Stop.outcome, mapNext]
    · rcases readSource (srcSizeOf i) i s with (f | r) | data
      · simp [hwf, hud, Stop.outcome, mapNext]
      · simp [hwf, hud, Stop.outcome, mapNext]
      · by_cases hpast : s.passesTop i.length = true <;> simp [hwf, hud, hpast, hafter, mapNext]
  · simp [hwf, mapNext]

section
variable (s : State)

/-- The two modes admit the same encodings (30_encoding R84, R86, R91). -/
theorem wellFormed_compat (i : Instr) :
    i.wellFormed (inMode .compat s).env.ctx = i.wellFormed (inMode .prot s).env.ctx := by
  cases i <;> rfl

/-- The segment, the address, every check and every translation are the same in the two modes (30_encoding R91 to R96,
20_memory R56 to R64). -/
theorem readSource_compat (sz : SrcSize) (i : Instr) :
    readSource sz i (inMode .compat s) = readSource sz i (inMode .prot s) := rfl

theorem writeDest_compat (w : DestSize) (d : RegNum) (v : DWord) :
    writeDest w d v (inMode .compat s) = inMode .compat (writeDest w d v (inMode .prot s)) := by
  cases w <;> rfl

/-- The register of the pc is as wide in compatibility mode as in protected mode (10_state R20). -/
theorem advance_compat {t : State} (hm : t.env.ctx.mode = .prot) (n : Nat) :
    (inMode .compat t).advance n = inMode .compat (t.advance n) := by
  have hwidth : (inMode .compat t).env.ctx.pcRegWidth = t.env.ctx.pcRegWidth := by simp [Ctx.pcRegWidth, inMode, hm]
  by_cases h : t.pc.toNat + n < 2 ^ t.env.ctx.pcRegWidth
  · rw [advance_of_lt h, advance_of_lt (hwidth ▸ h)]; rfl
  · rw [advance_of_not_lt h, advance_of_not_lt (hwidth ▸ h), State.freePc, State.freePc, hwidth]; rfl

theorem afterCrc32_compat (sz : SrcSize) (dw : DestSize) (i : Instr) (data : BitVec sz.bits) :
    afterCrc32 sz dw i data (inMode .compat s) = inMode .compat (afterCrc32 sz dw i data (inMode .prot s)) := by
  have hm (d : RegNum) (v : DWord) : (writeDest dw d v (inMode .prot s)).env.ctx.mode = .prot := by
    rw [writeDest_env]; rfl
  rw [afterCrc32_eq, afterCrc32_eq, advance_withFlags, advance_withFlags, writeDest_compat, advance_compat (hm ..)]
  rfl
end

/-! ### The obligations -/

/-- Settles O40: a register source is read without a check, so only `#UD` is left. -/
theorem registerSourceRaisesOnlyUd : Obligations.RegisterSourceRaisesOnlyUd := by
  unfold Obligations.RegisterSourceRaisesOnlyUd
  intro i s f hrm h
  obtain ⟨-, hcause, hud⟩ | ⟨-, hmem, -⟩ := exec_fault_iff.1 h
  · exact ⟨hud, hcause⟩
  · exact absurd hrm hmem

/-- Settles O41: what is not `#UD` was chosen among the exceptions that apply. -/
theorem raisedExceptionApplies : Obligations.RaisedExceptionApplies := by
  unfold Obligations.RaisedExceptionApplies
  intro i s f h hf
  obtain ⟨hen, hrm⟩ := enabled_of_exec_fault h hf
  exact ⟨hrm, applies_of_exec_fault hen hrm h⟩

/-- Settles O42: the exceptions collected are those that apply, and the choice is one of them. -/
theorem applicableExceptionIsRaised : Obligations.ApplicableExceptionIsRaised := by
  unfold Obligations.ApplicableExceptionIsRaised
  intro i s f hen hrm hf
  obtain ⟨g, hg⟩ := exec_fault_of_applies hen hrm hf
  exact ⟨⟨g, hg, applies_of_exec_fault hen hrm hg⟩, exec_fault_of_only hen hrm hf⟩

/-- Settles O44: nothing is unaligned and every address is translated, so the segment's exception alone can apply. -/
theorem realModeRaisesNoPageOrAlignmentFault : Obligations.RealModeRaisesNoPageOrAlignmentFault := by
  unfold Obligations.RealModeRaisesNoPageOrAlignmentFault
  intro i s f hm h
  by_cases hf : f = .ud
  · exact .inl hf
  · obtain ⟨-, happ⟩ := raisedExceptionApplies i s f h hf
    have ht (la : QWord) (code : Nat) : s.env.translate la ≠ .error code := by simp [translate_real hm]
    obtain ⟨rfl, -⟩ := (applies_iff_segment (not_unaligned_real hm _ _ _) ht).1 happ
    rw [segmentFault]
    split
    · exact .inr (.inr rfl)
    · exact .inr (.inl rfl)

/-- Settles O46: no check, operand or write tells the two modes apart. -/
theorem compatBehavesAsProtected : Obligations.CompatBehavesAsProtected := by
  unfold Obligations.CompatBehavesAsProtected
  intro i s
  exact exec_eq_mapNext (wellFormed_compat s i) rfl (readSource_compat s ..) rfl fun data => afterCrc32_compat s ..

/-- Settles O47: the causes of `#UD` and the choice among the exceptions that apply read the parameters, the address and
the counter alone. -/
theorem faultsDoNotDependOnData : Obligations.FaultsDoNotDependOnData := by
  unfold Obligations.FaultsDoNotDependOnData
  intro i s s' f henv hfree hea
  simp only [exec_fault_iff, Enabled, henv, hfree, hea]

/-- Settles O39: a cause of `#UD` is tested before anything is read. -/
theorem udComesFirst : Obligations.UdComesFirst := by
  unfold Obligations.UdComesFirst
  exact fun i s hw hcause => exec_fault_iff.2 (.inl ⟨hw, hcause, rfl⟩)

end Sys2Proof.Machine
end

section
/-! Read-after-write on one destination (70_reset_and_hazards R201, R202). -/

namespace Sys2Proof.Machine

/-- A completed instruction leaves in the low half of its destination the step of the old low half by the source it read
(40_crc32 R130). -/
theorem exec_next_r32_dest {i : Instr} {s t : State} (h : exec i s = .next t) :
    ∃ data, readSource (srcSizeOf i) i s = .ok data
      ∧ t.r32 (destReg i) = crc32cStep (srcSizeOf i).bits (s.r32 (destReg i)) data := by
  rw [exec_eq, execCrc32_next] at h
  obtain ⟨-, -, -, -, data, hread, rfl⟩ := h
  exact ⟨data, hread, afterCrc32_r32_dest ..⟩

/-- Settles O31: the second instruction steps the low half of its destination, which is what the first one left there. -/
theorem sequenceOnOneDestinationComposes : Obligations.SequenceOnOneDestinationComposes := by
  unfold Obligations.SequenceOnOneDestinationComposes
  intro i j s t u hdest hi hj
  obtain ⟨data, hread, hfirst⟩ := exec_next_r32_dest hi
  obtain ⟨data', hread', hsecond⟩ := exec_next_r32_dest hj
  exact ⟨data, data', hread, hread', by rw [← hfirst, ← hdest, hsecond]⟩

end Sys2Proof.Machine
end

section
/-! The state after reset (70_reset_and_hazards R200; the values are the model's, log entries 8 to 10). -/

namespace Sys2Proof.Machine

open Sys2Proof.Safety

/-- The pc after reset is 0FFF0H, and the pc of real-address mode has 16 bits (10_state R27). -/
theorem reset_pc_lt_top : State.reset.pc.toNat < 2 ^ State.reset.env.ctx.pcWidth := by decide

/-- Settles O58: memory starts empty, and a pc below the top of its width is below that of its register, which is no
narrower. -/
theorem resetHasTheInvariant : Obligations.ResetHasTheInvariant := by
  unfold Obligations.ResetHasTheInvariant
  have hwidths := Nat.pow_le_pow_right two_pos (pcWidth_le State.reset.env.ctx)
  exact ⟨reset_mem_wf, reset_pc_lt_top.trans_le hwidths, reset_pc_lt_top.le⟩

end Sys2Proof.Machine
end
